-- ==== Sys2Proof/Word.lean ====
section
/-! DEFINITION. The widths of the machine: one name for each kind of bit field the spec names (00_scope.md rules R5
and R7). Bit 0 is the least significant bit of every field, and every quantity is unsigned (R7). -/

namespace Sys2Proof

/-- One instruction word, `W[103:0]` (30_encoding.md rule R70). -/
abbrev Word := BitVec 104

/-- A 36-bit data-memory address (20_memory.md rule R50). -/
abbrev Addr := BitVec 36

/-- A 36-bit mask bitmap: a plane of a pattern, or one of the mask registers (00_scope.md rule R5). -/
abbrev Bitmap := BitVec 36

/-- The 64-bit content of one data-memory cell (20_memory.md rule R50). -/
abbrev Value := BitVec 64

/-- The 100-bit result (10_state.md rule R31). -/
abbrev Total := BitVec 100

/-- `ALL1_64`, the default `zeros` of value mode (41_masking_strategy.md rules R121 and R122). -/
abbrev allOnes64 : Value := BitVec.allOnes 64

end Sys2Proof
end

