-- ==== Sys2Proof/Config.lean ====
section
/-! DEFINITION. What is fixed for the machine and is neither state nor a step's choice: the sizes of 00_scope.md rule
R5, and the values this model names for the registers whose reset content the spec leaves unspecified. The spec
leaves no value free that a run can see (93_implementation_defined.md), so there is no opaque constant here. -/

namespace Sys2Proof.Config

/-- `ML`, the number of symbols in a mask pattern (00_scope.md rule R5). -/
def patternLength : Nat := 36

/-- The bytes of one instruction word laid out as bytes (20_memory.md rule R53). -/
def wordBytes : Nat := 13

/-- The largest address, 2^36−1 (20_memory.md rule R50). -/
def maxAddress : Nat := 2 ^ 36 - 1

/-- The largest cell value, 2^64−1 (00_scope.md rule R5). -/
def maxValue : Nat := 2 ^ 64 - 1

/-- What a cell that no `WRITE` has written reads as: "absent entries are logically zero" (10_state.md rules R32, R36). -/
def unwrittenCell : Value := 0

/-- DESIGN CHOICE (notes/assumptions/3.md, unsafe): the content of `M_ONES` at reset, which 10_state.md rules R26 and
R36 leave unspecified. -/
def resetOnes : Bitmap := 0

/-- DESIGN CHOICE (notes/assumptions/3.md, unsafe): the content of `M_ZEROS` at reset (10_state.md rules R27, R36). -/
def resetZeros : Bitmap := 0

/-- DESIGN CHOICE (notes/assumptions/3.md, unsafe): the content of `M_FLOAT` at reset (10_state.md rules R28, R36). -/
def resetFloat : Bitmap := 0

/-- DESIGN CHOICE (notes/assumptions/4.md, unsafe): the content of `RESULT` at reset (10_state.md rules R31, R36). -/
def resetResult : Total := 0

end Sys2Proof.Config
end

