-- ==== Sys2Proof/Syntax.lean ====
section
/-! DEFINITION. The syntax: the two instructions of spec/opcode_table.json, the symbols of a mask pattern, the verdict
a decoder gives, and the three errors a program can be refused with. -/

namespace Sys2Proof

/-- One symbol of a mask pattern, drawn from '0', '1' and 'X' (00_scope.md rule R14). -/
inductive Sym where
  | zero
  | one
  | floating
deriving DecidableEq, Repr

/-- An instruction (30_encoding.md rules R71 to R76), one constructor for each row of spec/opcode_table.json. -/
inductive Instr where
  /-- `SETMASK`, format M: the X plane and the ones plane of the pattern (30_encoding.md rule R72). -/
  | setmask (px p1 : Bitmap)
  /-- `WRITE`, format W: the address and the value (30_encoding.md rule R73). -/
  | write (addr : Addr) (value : Value)
deriving DecidableEq, Repr

/-- The three errors, all of them parse-time (60_exceptions.md rule R190). -/
inductive ParseError where
  /-- Wrong pattern length, a character outside the alphabet, or overlapping planes (60_exceptions.md rule R191). -/
  | malformedMask
  /-- A line of neither shape, an unused `op`, or a non-zero `rsv` (60_exceptions.md rule R192). -/
  | malformedInstruction
  /-- An address or value text that is no number of its width (60_exceptions.md rule R195). -/
  | malformedInteger
deriving DecidableEq, Repr

/-- What decoding a word answers (30_encoding.md rule R76): the instruction, or the error the word is validated to. -/
inductive Verdict where
  | legal (i : Instr)
  | illegal (e : ParseError)
deriving DecidableEq, Repr

end Sys2Proof
end

