-- ==== Sys2Proof/WellFormed.lean ====
section
/-! DEFINITION. Which terms of `Instr` are instructions. The operand types already carry every bound but one: the two
planes of a pattern may not both be set at a position, since the pair (1,1) is no symbol (30_encoding.md rule R74). -/

namespace Sys2Proof

/-- The pattern of a format-M word holds no (1,1) pair: `PX & P1 = 0` (30_encoding.md rule R74). -/
def planesDisjoint (px p1 : Bitmap) : Bool := px &&& p1 == 0

/-- Well-formed: the extra condition of the instruction's row in the opcode map (30_encoding.md rule R76). -/
def Instr.wf : Instr → Bool
  | .setmask px p1 => planesDisjoint px p1
  | .write _ _ => true

end Sys2Proof
end

