-- ==== Sys2Proof/Decode.lean ====
section
/-! DEFINITION. The decoder (30_encoding.md rules R70 to R79), total on every 104-bit word and refusing by name, the
encoder written from the same field tables, and the 13-byte layout of a word (20_memory.md rule R53). -/

namespace Sys2Proof

/-- `op` = `W[103:100]` (30_encoding.md rule R71). -/
def opField (w : Word) : BitVec 4 := w.extractLsb' 100 4

/-- `rsv` = `W[99:72]`, format M (30_encoding.md rule R72). -/
def rsvField (w : Word) : BitVec 28 := w.extractLsb' 72 28

/-- `PX` = `W[71:36]`, format M (30_encoding.md rule R72). -/
def pxField (w : Word) : Bitmap := w.extractLsb' 36 36

/-- `P1` = `W[35:0]`, format M (30_encoding.md rule R72). -/
def p1Field (w : Word) : Bitmap := w.extractLsb' 0 36

/-- `addr` = `W[99:64]`, format W (30_encoding.md rule R73). -/
def addrField (w : Word) : Addr := w.extractLsb' 64 36

/-- `value` = `W[63:0]`, format W (30_encoding.md rule R73). -/
def valueField (w : Word) : Value := w.extractLsb' 0 64

/-- `op` of `SETMASK` (30_encoding.md rule R71). -/
def opSetmask : BitVec 4 := 0x1

/-- `op` of `WRITE` (30_encoding.md rule R71). -/
def opWrite : BitVec 4 := 0x2

/-- Decode, the procedure of 30_encoding.md rule R76: first `op`, then `rsv`, then the planes (60_exceptions.md rule
R199). -/
def decode (w : Word) : Verdict :=
  if opField w = opSetmask then
    if rsvField w ≠ 0 then .illegal .malformedInstruction
    else if planesDisjoint (pxField w) (p1Field w) then .legal (.setmask (pxField w) (p1Field w))
    else .illegal .malformedMask
  else if opField w = opWrite then .legal (.write (addrField w) (valueField w))
  else .illegal .malformedInstruction

/-- Encode, from the field tables of 30_encoding.md rules R72 and R73. -/
def encode : Instr → Word
  | .setmask px p1 => opSetmask ++ 0#28 ++ px ++ p1
  | .write addr value => opWrite ++ addr ++ value

/-- Byte j of a word is `W[103−8j : 96−8j]`: most-significant byte first (20_memory.md rule R53). -/
def bytesOfWord (w : Word) : List (BitVec 8) :=
  (List.range Config.wordBytes).map fun j => w.extractLsb' (96 - 8 * j) 8

/-- The word that 13 bytes spell, the first of them the most significant (20_memory.md rule R53). -/
def wordOfBytes (bs : List (BitVec 8)) : Word :=
  bs.foldl (fun acc b => acc <<< 8 ||| b.setWidth 104) 0

/-- Decode the word at the head of a byte list and give the bytes after it; none where fewer than 13 bytes stand. -/
def decodeBytes (bs : List (BitVec 8)) : Option (Verdict × List (BitVec 8)) :=
  if Config.wordBytes ≤ bs.length then
    some (decode (wordOfBytes (bs.take Config.wordBytes)), bs.drop Config.wordBytes)
  else none

/-- The instruction the decoder reads from a word given as a number and its bit count, as spec/opcode_table.json numbers
its bits. Every instruction is one word of 104 bits (30_encoding.md rule R70); bits above `nbits` are 0. -/
def decodeTableWord (nbits w : Nat) : Option Instr :=
  match decode (BitVec.ofNat 104 (w % 2 ^ nbits)) with
  | .legal i => some i
  | .illegal _ => none

end Sys2Proof
end

