-- ==== Sys2Proof/Machine/State.lean ====
section
/-! DEFINITION. The architectural state (10_state.md), the reasons a step can stop, and the state after reset. State is
plain data: two states can be compared and a state can be written out. -/

namespace Sys2Proof.Machine

/-- `ES` (10_state.md rule R23): the three states of the engine. The 2-bit code 3 is never produced, so it is no value
of this type (93_implementation_defined.md U7). -/
inductive EngineState where
  | ready
  | running
  | halted
deriving DecidableEq, Repr

/-- `MODE` (10_state.md rule R24): which masking strategy is active for the whole run. -/
inductive Mode where
  /-- `MODE` = 0: Value Masking. -/
  | valueMasking
  /-- `MODE` = 1: Address-Floating Masking. -/
  | addressFloating
deriving DecidableEq, Repr

/-- `MEM` as data (10_state.md rules R32, R35): pairs of an address and the 64-bit cell there, addresses strictly rising,
no pair that holds what an unlisted address reads as. The spec's memory is addressed in whole 64-bit cells and has no
bytes (20_memory.md rules R50, R53), so a pair holds a cell (notes/assumptions/1.md). -/
abbrev Memory := List (Nat × Value)

/-- Everything the spec gives the machine (10_state.md rules R21 to R33, and the reset input of 70_reset_and_hazards.md
rule R220). `N` is the length of `prog`. -/
structure State where
  /-- `rst`, the reset input (70_reset_and_hazards.md rule R220): while it is asserted the machine takes no step. -/
  rst : Bool
  /-- `ES`, engine state (10_state.md rule R23). -/
  es : EngineState
  /-- `IP`, instruction pointer: an index in instruction words, 0 to N (10_state.md rule R21). -/
  ip : Nat
  /-- `MODE`, the strategy select input, constant over a run (10_state.md rule R24). -/
  mode : Mode
  /-- `M_VALID`: a `SETMASK` has executed in this run (10_state.md rule R25). -/
  mValid : Bool
  /-- `M_ONES` (10_state.md rule R26). -/
  mOnes : Bitmap
  /-- `M_ZEROS` (10_state.md rule R27). -/
  mZeros : Bitmap
  /-- `M_FLOAT` (10_state.md rule R28). -/
  mFloat : Bitmap
  /-- `ERR` (10_state.md rule R30): code 0, no error, is `none`; codes 1 to 3 are the three errors. -/
  err : Option ParseError
  /-- `RESULT` (10_state.md rule R31). -/
  result : Total
  /-- `MEM`, data memory (10_state.md rule R32). -/
  mem : Memory
  /-- `Prog`, the program store: N words, constant over a run (10_state.md rule R33). -/
  prog : List Word
deriving DecidableEq, Repr

/-- Why a step stops. -/
inductive Fault where
  /-- Raised by `step` while `ERR` ≠ 0: the terminal-error state of 60_exceptions.md rule R200, which "a model must treat
  … as a fault". Safe: the spec gives it no step. -/
  | terminalError (e : ParseError)
  /-- Raised by `step` when `ES` = `Halted`: the run is over and the state has no successor (43_engine_write.md rule
  R172). The normal end of a run, no error. Safe: the spec gives it no step. -/
  | runOver
  /-- Raised by `step` while `rst` is asserted (70_reset_and_hazards.md rule R220). Safe: the spec gives it no step. -/
  | heldInReset
  /-- Raised by `step` when `ES` = `Running` and `IP` > N, a combination 43_engine_write.md rule R160 says is never
  reached. Safe. -/
  | pointerPastEnd
  /-- Raised by `SETMASK` on planes that overlap, which no legal word holds (30_encoding.md rule R77 (c)). Safe. -/
  | overlappingPlanes
  /-- Raised by `WRITE` in `MODE` = 1 when `ones` and `floating` overlap, which no run reaches and to which a model must
  give no meaning (93_implementation_defined.md U1). Safe. -/
  | overlappingDescriptor
deriving DecidableEq, Repr

/-- Why the model gives no meaning. -/
inductive Refusal where
  /-- An instruction that has no meaning yet. No arm of `exec` answers it. Safe. -/
  | notModelled (mnemonic : String)
  /-- Raised by `step` when `ERR` = 0 and `Prog[IP]` is an illegal word: the store is not the one that was validated
  (93_implementation_defined.md U6, treatment `refuse`). Safe. -/
  | unvalidatedWord (e : ParseError)
  /-- Raised by the host port when the host loads a program or sets `MODE` while `rst` is not asserted
  (70_reset_and_hazards.md rule R226; 93_implementation_defined.md U4, U6, treatment `refuse`). Safe. -/
  | hostMoveDuringRun
deriving DecidableEq, Repr

/-- The machine right after reset is released (10_state.md rule R36), before any program was loaded: `MODE` and `Prog` are
inputs the host sets (notes/assumptions/5.md and 6.md name their values here), `ERR` is the validation of the empty
program, and the registers the table leaves unspecified hold the values of Config (notes/assumptions/3.md and 4.md). -/
def State.reset : State where
  rst := false
  es := .ready
  ip := 0
  mode := .valueMasking
  mValid := false
  mOnes := Config.resetOnes
  mZeros := Config.resetZeros
  mFloat := Config.resetFloat
  err := none
  result := Config.resetResult
  mem := []
  prog := []

end Sys2Proof.Machine
end

