-- ==== Sys2Proof/Machine/Ops.lean ====
section
/-! DEFINITION. The named operations over memory and registers that every meaning is written with, and the one way an
error is recorded. -/

namespace Sys2Proof.Machine

/-! ### Data memory (20_memory.md) -/

/-- The content at key `a` of the list that holds memory; an unlisted key reads as an unwritten cell (R32). -/
def Memory.cellAt : Memory → Nat → Value
  | [], _ => Config.unwrittenCell
  | (b, w) :: m, a => if a = b then w else Memory.cellAt m a

/-- `MemRead(a, 64)` (00_scope.md rule R9): every 36-bit address names exactly one cell (20_memory.md rule R54). -/
def Memory.read (m : Memory) (a : Addr) : Value := Memory.cellAt m a.toNat

/-- List the pair unless it holds what an unlisted address reads as. -/
def Memory.list (a : Nat) (v : Value) (m : Memory) : Memory :=
  if v = Config.unwrittenCell then m else (a, v) :: m

/-- Set the cell at key `a`, keeping the keys strictly rising. -/
def Memory.setAt (a : Nat) (v : Value) : Memory → Memory
  | [] => Memory.list a v []
  | (b, w) :: m =>
    if a < b then Memory.list a v ((b, w) :: m)
    else if a = b then Memory.list a v m
    else (b, w) :: Memory.setAt a v m

/-- `MemWrite(a, 64, v)` (00_scope.md rule R9): "sets cell a to the 64-bit value v and changes no other cell". -/
def Memory.write (a : Addr) (v : Value) (m : Memory) : Memory := Memory.setAt a.toNat v m

/-- `for a in ASET: MemWrite(a, 64, v)` (43_engine_write.md rule R165). The writes store one value at distinct addresses,
so the order they are made in does not matter (20_memory.md rule R60). -/
def Memory.writeSet (as : List Addr) (v : Value) (m : Memory) : Memory :=
  as.foldr (fun a acc => Memory.write a v acc) m

/-- The exact sum of all cells: cells that are not listed hold 0 and add nothing (43_engine_write.md rules R170, R171). -/
def Memory.total : Memory → Nat
  | [] => 0
  | (_, w) :: m => w.toNat + Memory.total m

/-- The canonical form of memory: keys strictly rising, each of them an address, no pair that holds an unwritten cell's
value. Equal memories are equal lists. -/
abbrev Memory.wf (m : Memory) : Prop :=
  m.Pairwise (fun c d => c.1 < d.1) ∧ ∀ c ∈ m, c.1 < 2 ^ 36 ∧ c.2 ≠ Config.unwrittenCell

/-! ### Registers (10_state.md) -/

/-- `IP <- IP + 1` (10_state.md rule R21), the only way an instruction sets `IP`. -/
def State.advance (s : State) : State := { s with ip := s.ip + 1 }

/-- Write the three mask bitmaps (10_state.md rule R29: every `SETMASK` writes all three, whatever `MODE` is). -/
def State.setMaskBitmaps (ones zeros fmap : Bitmap) (s : State) : State :=
  { s with mOnes := ones, mZeros := zeros, mFloat := fmap }

/-- Write the cells of an address set (43_engine_write.md rule R165). -/
def State.writeCells (as : List Addr) (v : Value) (s : State) : State :=
  { s with mem := Memory.writeSet as v s.mem }

/-! ### Errors (60_exceptions.md) -/

/-- Taking an error (60_exceptions.md rules R197, R200): the code goes to `ERR` and nothing else is recorded. There is no
handler, no vector, no saved state and no mode change, and no return from an error (R201). -/
def State.takeError (e : ParseError) (s : State) : State := { s with err := some e }

/-- The code of `ERR` (10_state.md rule R30). -/
def errCode : Option ParseError → BitVec 2
  | none => 0
  | some .malformedMask => 1
  | some .malformedInstruction => 2
  | some .malformedInteger => 3

/-- The code of `ES` (10_state.md rule R23). -/
def EngineState.code : EngineState → BitVec 2
  | .ready => 0
  | .running => 1
  | .halted => 2

/-- The code of `MODE` (10_state.md rule R24). -/
def Mode.code : Mode → BitVec 1
  | .valueMasking => 0
  | .addressFloating => 1

/-- `N`, the program length (00_scope.md rule R6). -/
def State.programLength (s : State) : Nat := s.prog.length

end Sys2Proof.Machine
end

