-- ==== Sys2Proof/Machine/Boot.lean ====
section
/-! DEFINITION. Binary validation and the release of reset (60_exceptions.md rule R193; 70_reset_and_hazards.md section 1;
10_state.md rule R36). -/

namespace Sys2Proof.Machine

/-- `Validate(Prog)` (60_exceptions.md rule R193): the error of the first illegal word, in program order; none is code 0. -/
def validate : List Word → Option ParseError
  | [] => none
  | w :: ws =>
    match decode w with
    | .legal _ => validate ws
    | .illegal e => some e

/-- The state after reset is released with this `MODE` and this program store (10_state.md rule R36): every field at its
reset value, and `ERR` the result of validation, taken as an error where it is one. -/
def release (mode : Mode) (prog : List Word) : State :=
  match validate prog with
  | none => { State.reset with mode, prog }
  | some e => State.takeError e { State.reset with mode, prog }

/-- The state in which the next step fetches and runs the word `w` (notes/assumptions/6.md): a program store that holds `w`
alone, validated; the engine started, where validation lets it start; `IP` at the word. `MEM`, the mask registers, `MODE`
and `RESULT` are kept. -/
def State.loadWord (w : Word) (s : State) : State :=
  { s with
    rst := false
    prog := [w]
    ip := 0
    err := validate [w]
    es := if validate [w] = none then .running else .ready }

end Sys2Proof.Machine
end

