-- ==== Sys2Proof/Machine/Operands.lean ====
section
/-! DEFINITION. The operand forms (30_encoding.md section 2): the 36-symbol pattern of `SETMASK` and its two planes, and
the address and value of `WRITE`, which are whole contiguous fields. -/

namespace Sys2Proof.Machine

/-- Symbol decode at bit position p (30_encoding.md rule R74): the pair (`PX[p]`, `P1[p]`); (1,1) is no symbol. -/
def symbolAt (px p1 : Bitmap) (p : Nat) : Option Sym :=
  match px.getLsbD p, p1.getLsbD p with
  | false, false => some .zero
  | false, true => some .one
  | true, false => some .floating
  | true, true => none

/-- The symbols of bit positions n−1 down to 0, the one of the highest position first. -/
def symbolsBelow (px p1 : Bitmap) : Nat → Option (List Sym)
  | 0 => some []
  | n + 1 =>
    match symbolAt px p1 n, symbolsBelow px p1 n with
    | some x, some rest => some (x :: rest)
    | _, _ => none

/-- The pattern S[0] … S[35] of a format-M word, most-significant bit first: S[35−p] describes bit position p (00_scope.md
rule R8). None where some pair is no symbol. -/
def symbolsOfPlanes (px p1 : Bitmap) : Option (List Sym) := symbolsBelow px p1 Config.patternLength

/-- The bitmap whose bit p is `f` of the symbol that describes bit position p, S read most-significant bit first
(00_scope.md rule R8; 30_encoding.md rule R86). -/
def bitmapOf (f : Sym → Bool) (S : List Sym) : Bitmap :=
  S.foldl (fun acc x => acc <<< 1 ||| (if f x then 1#36 else 0#36)) 0

/-- The X plane of a pattern (30_encoding.md rule R72). -/
def xPlane (S : List Sym) : Bitmap := bitmapOf (fun x => x == .floating) S

/-- The ones plane of a pattern (30_encoding.md rule R72). -/
def onesPlane (S : List Sym) : Bitmap := bitmapOf (fun x => x == .one) S

/-- The bit positions set in a bitmap, in ascending order (42_address_enumerator.md rule R141). -/
def positions (fmap : Bitmap) : List Nat := (List.range 36).filter fun p => fmap.getLsbD p

/-- `popcount(v)`, the number of 1 bits (00_scope.md rule R7). -/
def popcount (b : Bitmap) : Nat := (List.range 36).countP fun p => b.getLsbD p

/-- A 36-bit quantity where a 64-bit one is wanted: `zext_64` (30_encoding.md rule R75; 41_masking_strategy.md R121). -/
def zext64 (b : Bitmap) : Value := b.setWidth 64

end Sys2Proof.Machine
end

