-- ==== Sys2Proof/Machine/Flags.lean ====
section
/-! DEFINITION. The machine has no status flag, condition code or predicate (10_state.md rule R22), so there is no flag
computation. The one validity bit, `M_VALID` (10_state.md rule R25), is set here. -/

namespace Sys2Proof.Machine

/-- `M_VALID <- 1`, done by every `SETMASK`; only reset clears the bit (10_state.md rule R25). -/
def State.markMaskValid (s : State) : State := { s with mValid := true }

end Sys2Proof.Machine
end

