-- ==== Sys2Proof/Machine/MaskParser.lean ====
section
/-! DEFINITION. The Mask Descriptor Parser (40_mask_parser_setmask.md section 1): a pure function from a pattern to the
fields of both descriptors. -/

namespace Sys2Proof.Machine

/-- The parser's output for one pattern: `ones` and `zeros` are the Value-Masking descriptor, `ones` and the set that
`fmap` marks are the Address-Floating descriptor (40_mask_parser_setmask.md rule R100). -/
structure MaskDescriptor where
  ones : Bitmap
  zeros : Bitmap
  fmap : Bitmap
deriving DecidableEq, Repr

/-- `floating`, in ascending order (40_mask_parser_setmask.md rule R103). -/
def MaskDescriptor.floating (d : MaskDescriptor) : List Nat := positions d.fmap

/-- The parser on a pattern written most-significant bit first (40_mask_parser_setmask.md rules R100 to R103): '1' sets a
bit of both `ones` and `zeros`, 'X' sets `zeros` and joins `floating`, '0' sets neither. None is `MalformedMask`, "when
the string length ≠ 36"; the other cause, a character that is no symbol, is met where symbols are read (R106). -/
def maskParser (S : List Sym) : Option MaskDescriptor :=
  if S.length = Config.patternLength then
    some { ones := bitmapOf (fun x => x == .one) S
           zeros := bitmapOf (fun x => x == .one || x == .floating) S
           fmap := bitmapOf (fun x => x == .floating) S }
  else none

/-- The parser on the planes of a format-M word: three wires (40_mask_parser_setmask.md rule R104). None where the planes
overlap, which is `MalformedMask` (R106; 30_encoding.md rule R77 (c)). -/
def parsePlanes (px p1 : Bitmap) : Option MaskDescriptor :=
  if planesDisjoint px p1 then some { ones := p1, zeros := p1 ||| px, fmap := px } else none

end Sys2Proof.Machine
end

