-- ==== Sys2Proof/Machine/Setmask.lean ====
section
/-! DEFINITION. The meaning of `SETMASK` (40_mask_parser_setmask.md section 2). -/

namespace Sys2Proof.Machine

/-- `SETMASK pattern` (40_mask_parser_setmask.md rule R107): the parser's output replaces the descriptor, `M_VALID` is set,
and `IP` advances by 1. It does not read `MODE` (R109). Overlapping planes are no pattern: no legal word holds them
(30_encoding.md rule R77 (c)), and the meaning stops on them (notes/assumptions/8.md). -/
def execSetmask (px p1 : Bitmap) (s : State) : Host.Outcome State Fault Refusal :=
  match parsePlanes px p1 with
  | some d => .next (s.setMaskBitmaps d.ones d.zeros d.fmap).markMaskValid.advance
  | none => .fault .overlappingPlanes

end Sys2Proof.Machine
end

