-- ==== Sys2Proof/Machine/Enumerator.lean ====
section
/-! DEFINITION. The Address Enumerator (42_address_enumerator.md): the combinatorial expansion of the floating positions
of an address, as a sequence and as the counter-driven generator that produces it. -/

namespace Sys2Proof.Machine

/-- `scatter(c, F)`: bit p_j of the result is bit j of the counter value c, for every position p_j of F, and every other
bit is 0 (42_address_enumerator.md rule R142). -/
def scatter : Nat → List Nat → Addr
  | _, [] => 0
  | c, p :: F => (if c.testBit 0 then BitVec.twoPow 36 p else 0) ||| scatter (c >>> 1) F

/-- a_c = (base & ~fmap) | scatter(c, F) (42_address_enumerator.md rule R142). The enumerator clears the floating bits of
its input itself (R144). -/
def enumeratedAddress (base : Addr) (fmap : Bitmap) (c : Nat) : Addr :=
  (base &&& ~~~fmap) ||| scatter c (positions fmap)

/-- The sequence a_0, …, a_(2^k − 1), k the number of floating positions (42_address_enumerator.md rule R142). Its order is
no part of the contract (R145). -/
def enumerate (base : Addr) (fmap : Bitmap) : List Addr :=
  (List.range (2 ^ (positions fmap).length)).map (enumeratedAddress base fmap)

/-- The streaming form (42_address_enumerator.md rule R146): the inputs, the hidden counter `CNT` (10_state.md rule R34)
and `DONE`. It lives only inside one `WRITE`, so it is no part of State (notes/assumptions/10.md). -/
structure Generator where
  base : Addr
  fmap : Bitmap
  cnt : Nat
  done : Bool
deriving DecidableEq, Repr

/-- `start(base, fmap)` (42_address_enumerator.md rule R146). -/
def Generator.start (base : Addr) (fmap : Bitmap) : Generator := { base, fmap, cnt := 0, done := false }

/-- `next()` (42_address_enumerator.md rule R146): none is the end of the sequence. The last value is tested for before the
increment, so `CNT` never needs more than k bits. -/
def Generator.next (g : Generator) : Option (Addr × Generator) :=
  if g.done then none
  else
    some (enumeratedAddress g.base g.fmap g.cnt,
      if g.cnt = 2 ^ (positions g.fmap).length - 1 then { g with done := true } else { g with cnt := g.cnt + 1 })

/-- What at most `calls` calls of `next()` emit, in order. -/
def Generator.emitted : Nat → Generator → List Addr
  | 0, _ => []
  | calls + 1, g =>
    match g.next with
    | none => []
    | some (a, g') => a :: Generator.emitted calls g'

end Sys2Proof.Machine
end

