-- ==== Sys2Proof/Machine/Strategy.lean ====
section
/-! DEFINITION. The Masking Strategy select unit (41_masking_strategy.md): the effective descriptor and the two functions
`apply_value` and `apply_addresses` in both variants. Everything here is a pure function (R120). -/

namespace Sys2Proof.Machine

/-- The effective descriptor (41_masking_strategy.md rule R121): `ones` and `zeros` at 64 bits, `fmap` at 36. -/
structure Descriptor where
  ones : Value
  zeros : Value
  fmap : Bitmap
deriving DecidableEq, Repr

/-- The default descriptor (41_masking_strategy.md rule R122): it masks nothing, and `zeros` is all ones over the whole
64-bit value path. -/
def defaultDescriptor : Descriptor := { ones := 0, zeros := allOnes64, fmap := 0 }

/-- The effective descriptor, selected by `M_VALID` (41_masking_strategy.md rule R121): the registers are not read while
`M_VALID` = 0. -/
def effectiveDescriptor (s : State) : Descriptor :=
  if s.mValid then { ones := zext64 s.mOnes, zeros := zext64 s.mZeros, fmap := s.mFloat }
  else defaultDescriptor

/-- `apply_value`: (x | ones) & zeros at 64 bits in Value Masking (41_masking_strategy.md rule R123); x itself in
Address-Floating Masking (R125). -/
def applyValue (mode : Mode) (d : Descriptor) (x : Value) : Value :=
  match mode with
  | .valueMasking => (x ||| d.ones) &&& d.zeros
  | .addressFloating => x

/-- The canonical base: every `ones` bit on, every floating bit cleared (41_masking_strategy.md rule R126). Where the two
overlap the result has no meaning, and `WRITE` stops before using it (93_implementation_defined.md U1). -/
def canonicalBase (d : Descriptor) (base : Addr) : Addr := (base ||| d.ones.setWidth 36) &&& ~~~d.fmap

/-- `apply_addresses`: the one address `base` in Value Masking (41_masking_strategy.md rule R124); the enumeration from the
canonical base in Address-Floating Masking (R126, R127). The list is consumed as a set (R120). -/
def applyAddresses (mode : Mode) (d : Descriptor) (base : Addr) : List Addr :=
  match mode with
  | .valueMasking => [base]
  | .addressFloating => enumerate (canonicalBase d base) d.fmap

/-- `ones` and `floating` overlap in the descriptor Address-Floating Masking uses (41_masking_strategy.md rule R130). No run
reaches this, and a model gives it no meaning (93_implementation_defined.md U1). -/
def overlapInUse (mode : Mode) (d : Descriptor) : Bool :=
  match mode with
  | .valueMasking => false
  | .addressFloating => d.ones.setWidth 36 &&& d.fmap != 0

end Sys2Proof.Machine
end

