-- ==== Sys2Proof/Machine/Write.lean ====
section
/-! DEFINITION. The meaning of `WRITE` (43_engine_write.md section 3) and its streaming realisation (R168). -/

namespace Sys2Proof.Machine

/-- `WRITE addr, value` (43_engine_write.md rule R165), one atomic step: the transformed value goes to every address of the
address set, and `IP` advances by 1. A descriptor whose `ones` and `floating` overlap stops it in `MODE` = 1
(93_implementation_defined.md U1; notes/assumptions/8.md). -/
def execWrite (addr : Addr) (value : Value) (s : State) : Host.Outcome State Fault Refusal :=
  let d := effectiveDescriptor s
  if overlapInUse s.mode d then .fault .overlappingDescriptor
  else .next (s.writeCells (applyAddresses s.mode d addr) (applyValue s.mode d value)).advance

/-- `a <- next(); MemWrite(a, 64, tv)`, repeated until the generator ends, in at most `calls` calls (43_engine_write.md rule
R168). The generator and the memory it has come to are no state of the architectural machine. -/
def streamCells : Nat → Value → Generator → Memory → Memory
  | 0, _, _, m => m
  | calls + 1, v, g, m =>
    match g.next with
    | none => m
    | some (a, g') => streamCells calls v g' (Memory.write a v m)

/-- The streaming realisation of `WRITE` in `MODE` = 1 (43_engine_write.md rule R168): start the generator at the canonical
base, stream the cell writes, then advance `IP`. 2^36 calls cover every k, and one more meets the end. -/
def streamWrite (addr : Addr) (value : Value) (s : State) : State :=
  let d := effectiveDescriptor s
  let g := Generator.start (canonicalBase d addr) d.fmap
  State.advance { s with mem := streamCells (2 ^ 36 + 1) (applyValue s.mode d value) g s.mem }

end Sys2Proof.Machine
end

