-- ==== Sys2Proof/Machine/Dispatch.lean ====
section
/-! DEFINITION. One arm per instruction. -/

namespace Sys2Proof.Machine

def exec (i : Instr) (s : State) : Host.Outcome State Fault Refusal :=
  match i with
  | .setmask px p1 => Sys2Proof.Machine.execSetmask px p1 s
  | .write addr value => Sys2Proof.Machine.execWrite addr value s

end Sys2Proof.Machine
end

