-- ==== Sys2Proof/Machine/Engine.lean ====
section
/-! DEFINITION. The Execution Engine's own steps (43_engine_write.md sections 1 and 4): fetch, start and halt. -/

namespace Sys2Proof.Machine

/-- Fetch `Prog[IP]` (43_engine_write.md rule R162); none where `IP` has passed the last instruction. -/
def State.fetch (s : State) : Option Word := s.prog[s.ip]?

/-- The start step: `ES <- Running`, nothing else (43_engine_write.md rule R161). -/
def State.start (s : State) : State := { s with es := .running }

/-- The sum of all cells, as the 100-bit register holds it (43_engine_write.md rules R170, R171). -/
def resultOf (m : Memory) : Total := BitVec.ofNat 100 (Memory.total m)

/-- The halt step: `RESULT` takes the sum and `ES <- Halted`, nothing else (43_engine_write.md rule R170). -/
def State.halt (s : State) : State := { s with result := resultOf s.mem, es := .halted }

end Sys2Proof.Machine
end

