-- ==== Sys2Proof/Machine/Step.lean ====
section
/-! DEFINITION. The step relation of the Execution Engine (43_engine_write.md rule R160). -/

namespace Sys2Proof.Machine

/-- One step (43_engine_write.md rule R160): start, the instruction `Prog[IP]`, or halt; a state the table gives no step
stops by name (notes/assumptions/7.md and 9.md). -/
def step (s : State) : Host.Outcome State Fault Refusal :=
  if s.rst then .fault .heldInReset
  else
    match s.err with
    | some e => .fault (.terminalError e)
    | none =>
      match s.es with
      | .ready => .next s.start
      | .halted => .fault .runOver
      | .running =>
        match s.fetch with
        | some w =>
          match decode w with
          | .legal i => exec i s
          | .illegal e => .refused (.unvalidatedWord e)
        | none => if s.ip = s.programLength then .next s.halt else .fault .pointerPastEnd

/-- `s` with the word `w` (its first `nbits` bits, the others 0) as the instruction that the next step fetches and runs. -/
def State.withFetchWord (s : State) (nbits w : Nat) : State :=
  s.loadWord (BitVec.ofNat 104 (w % 2 ^ nbits))

end Sys2Proof.Machine
end

