-- ==== Sys2Proof/Machine/Text.lean ====
section
/-! DEFINITION. The text form of a program (30_encoding.md section 5): the classification of lines, the assembler, its
validation (60_exceptions.md rule R196) and the disassembler. A line is a list of characters without its terminator, since
splitting a file into lines is the host's (30_encoding.md rule R80). -/

namespace Sys2Proof.Machine

/-- One line of program text. -/
abbrev Line := List Char

/-- The seven characters that begin a `mask` line (30_encoding.md rule R81). -/
def maskPrefix : Line := "mask = ".toList

/-- The four characters that begin a `mem` line (30_encoding.md rule R81). -/
def memPrefix : Line := "mem[".toList

/-- The four characters between the address text and the value text (30_encoding.md rule R81). -/
def memSeparator : Line := "] = ".toList

/-- What follows `pre` in a line that begins with it. -/
def stripPrefix : Line → Line → Option Line
  | [], l => some l
  | _ :: _, [] => none
  | c :: pre, d :: l => if c = d then stripPrefix pre l else none

/-- The text before and the text after the first occurrence of the separator (30_encoding.md rule R82). -/
def splitAtSeparator : Line → Option (Line × Line)
  | [] => none
  | c :: l =>
    match stripPrefix memSeparator (c :: l) with
    | some rest => some ([], rest)
    | none =>
      match splitAtSeparator l with
      | some (before, after) => some (c :: before, after)
      | none => none

/-- The shape of a line (30_encoding.md rule R82). -/
inductive LineShape where
  | maskLine (pattern : Line)
  | memLine (addrText valueText : Line)
  | neither
deriving DecidableEq, Repr

/-- Classification, in the order of 30_encoding.md rule R82. -/
def classify (l : Line) : LineShape :=
  match stripPrefix maskPrefix l with
  | some pattern => .maskLine pattern
  | none =>
    match stripPrefix memPrefix l with
    | none => .neither
    | some rest =>
      match splitAtSeparator rest with
      | some (addrText, valueText) => .memLine addrText valueText
      | none => .neither

/-- The symbol a character stands for: '0', '1' or capital 'X' and no other (30_encoding.md rule R83). -/
def symOfChar (c : Char) : Option Sym :=
  if c = '0' then some .zero else if c = '1' then some .one else if c = 'X' then some .floating else none

/-- The symbols of a text, none where a character is no symbol. -/
def symsOfText : Line → Option (List Sym)
  | [] => some []
  | c :: l =>
    match symOfChar c, symsOfText l with
    | some x, some rest => some (x :: rest)
    | _, _ => none

/-- The pattern of a `mask` line (30_encoding.md rule R83): exactly 36 characters, each a symbol. -/
def parsePattern (t : Line) : Option (List Sym) :=
  if t.length = Config.patternLength then symsOfText t else none

/-- The value of a decimal digit (30_encoding.md rule R85). -/
def digitOfChar (c : Char) : Option Nat :=
  if c.isDigit then some (c.toNat - '0'.toNat) else none

/-- The number that `acc` followed by the digits of a text denotes, most-significant digit first (20_memory.md rule R53). -/
def digitsFrom : Nat → Line → Option Nat
  | acc, [] => some acc
  | acc, c :: l =>
    match digitOfChar c with
    | some d => digitsFrom (10 * acc + d) l
    | none => none

/-- An integer text (30_encoding.md rule R85): non-empty, decimal digits only, and at most `bound`. -/
def parseInteger (bound : Nat) (t : Line) : Option Nat :=
  if t = [] then none
  else
    match digitsFrom 0 t with
    | some n => if n ≤ bound then some n else none
    | none => none

/-- What one line assembles to: its word, or the error it raises. -/
inductive LineVerdict where
  | word (w : Word)
  | malformed (e : ParseError)
deriving DecidableEq, Repr

/-- Assembly of one line (30_encoding.md rules R82 to R86). -/
def assembleLine (l : Line) : LineVerdict :=
  match classify l with
  | .neither => .malformed .malformedInstruction
  | .maskLine pattern =>
    match parsePattern pattern with
    | some S => .word (encode (.setmask (xPlane S) (onesPlane S)))
    | none => .malformed .malformedMask
  | .memLine addrText valueText =>
    match parseInteger Config.maxAddress addrText, parseInteger Config.maxValue valueText with
    | some n, some v => .word (encode (.write (BitVec.ofNat 36 n) (BitVec.ofNat 64 v)))
    | _, _ => .malformed .malformedInteger

/-- `ValidateText(lines)` (60_exceptions.md rule R196): the error of the first malformed line; none is code 0. -/
def validateText : List Line → Option ParseError
  | [] => none
  | l :: ls =>
    match classify l with
    | .neither => some .malformedInstruction
    | .maskLine pattern =>
      match parsePattern pattern with
      | none => some .malformedMask
      | some _ => validateText ls
    | .memLine addrText valueText =>
      match parseInteger Config.maxAddress addrText, parseInteger Config.maxValue valueText with
      | some _, some _ => validateText ls
      | _, _ => some .malformedInteger

/-- What a program text assembles to: a program store, or the one error it is refused with. -/
inductive TextVerdict where
  | program (prog : List Word)
  | refusedWith (e : ParseError)
deriving DecidableEq, Repr

/-- The words of the lines that assemble, in program order: line i gives `Prog[i]` (30_encoding.md rule R80). -/
def wordsOfLines : List Line → List Word
  | [] => []
  | l :: ls =>
    match assembleLine l with
    | .word w => w :: wordsOfLines ls
    | .malformed _ => wordsOfLines ls

/-- The assembler (30_encoding.md rule R88): every line is checked before anything is loaded, and any malformed line means
there is no program store at all. -/
def assembleText (ls : List Line) : TextVerdict :=
  match validateText ls with
  | some e => .refusedWith e
  | none => .program (wordsOfLines ls)

/-- The character of a symbol (30_encoding.md rule R87). -/
def charOfSym : Sym → Char
  | .zero => '0'
  | .one => '1'
  | .floating => 'X'

/-- A number in decimal without leading zeros, zero as the single digit (30_encoding.md rule R87). -/
def decimal (n : Nat) : Line := Nat.toDigits 10 n

/-- The canonical text of an instruction (30_encoding.md rule R87); none for planes that are no pattern. -/
def disassemble : Instr → Option Line
  | .setmask px p1 =>
    match symbolsOfPlanes px p1 with
    | some S => some (maskPrefix ++ S.map charOfSym)
    | none => none
  | .write addr value => some (memPrefix ++ decimal addr.toNat ++ memSeparator ++ decimal value.toNat)

/-- The canonical text of a word: "every legal word has exactly one" (30_encoding.md rule R87). -/
def disassembleWord (w : Word) : Option Line :=
  match decode w with
  | .legal i => disassemble i
  | .illegal _ => none

end Sys2Proof.Machine
end

