-- ==== Sys2Proof/Machine/HostPort.lean ====
section
/-! DEFINITION. What the host can do to the machine and read from it (70_reset_and_hazards.md rules R220 to R227;
60_exceptions.md rule R203). -/

namespace Sys2Proof.Machine

/-- The host's moves (70_reset_and_hazards.md rules R223, R225). -/
inductive HostAction where
  /-- Assert `rst`. -/
  | assertReset
  /-- Put the N words of a program in the program store. -/
  | loadProgram (prog : List Word)
  /-- Hand the text front end the N lines of a program. -/
  | loadText (lines : List Line)
  /-- Drive `MODE`. -/
  | setMode (mode : Mode)
  /-- Release `rst`. -/
  | releaseReset
deriving DecidableEq, Repr

/-- Asserting `rst` discards everything of the run (70_reset_and_hazards.md rule R221) but the host's own inputs, `MODE` and
the program store. The registers take their reset values at once (notes/assumptions/11.md). `ERR` is among them, so the
verdict of a refused text is dropped, and the store stays as it is: after a refused text, the empty one
(notes/assumptions/16.md, DESIGN CHOICE). -/
def State.underReset (s : State) : State := { State.reset with rst := true, mode := s.mode, prog := s.prog }

/-- Handing over program text (60_exceptions.md rule R196): it becomes the program store, or there is no store and `ERR`
takes the one error (notes/assumptions/12.md). "No store" is held as the empty store, which drops earlier words and cannot
be told from the empty program by a later reset without a new hand-over (notes/assumptions/16.md, DESIGN CHOICE). -/
def State.loadText (lines : List Line) (s : State) : State :=
  match assembleText lines with
  | .program prog => { s with prog, err := none }
  | .refusedWith e => State.takeError e { s with prog := [] }

/-- The release of `rst` (70_reset_and_hazards.md rule R220): the reset state of the loaded program store and `MODE`, or the
terminal-error state of the text that was refused. Where no text was refused since `rst` was asserted it runs the store that
is there: with no new hand-over after a refused text, the empty program (notes/assumptions/16.md, DESIGN CHOICE). -/
def State.afterRelease (s : State) : State :=
  match s.err with
  | none => release s.mode s.prog
  | some e => State.takeError e { State.reset with mode := s.mode, prog := s.prog }

/-- One move of the host. Loading and setting `MODE` are moves of a machine that is held in reset; during a run they are
refused (70_reset_and_hazards.md rule R226). Driving `rst` to the level it has changes nothing. -/
def hostAct (a : HostAction) (s : State) : Host.Outcome State Fault Refusal :=
  match a, s.rst with
  | .assertReset, false => .next s.underReset
  | .assertReset, true => .next s
  | .releaseReset, true => .next s.afterRelease
  | .releaseReset, false => .next s
  | .loadProgram prog, true => .next { s with prog, err := none }
  | .loadText lines, true => .next (s.loadText lines)
  | .setMode mode, true => .next { s with mode }
  | .loadProgram _, false => .refused .hostMoveDuringRun
  | .loadText _, false => .refused .hostMoveDuringRun
  | .setMode _, false => .refused .hostMoveDuringRun

/-- The output `ES` (70_reset_and_hazards.md rule R225). -/
def State.outEs (s : State) : BitVec 2 := s.es.code

/-- The output `ERR` (70_reset_and_hazards.md rule R225). -/
def State.outErr (s : State) : BitVec 2 := errCode s.err

/-- The output `RESULT`, which has a value for the host only while `ES` = `Halted` (10_state.md rule R31;
93_implementation_defined.md U5). -/
def State.outResult (s : State) : Option Total :=
  if s.es = .halted ∧ s.rst = false then some s.result else none

end Sys2Proof.Machine
end

