-- ==== Sys2Proof/Safety.lean ====
section
/-! DEFINITION. The words in which claims are made: the invariant of reachable states, the states a run ends or waits in,
several steps in a row, what the spec lets be seen of a state, and the memory's meaning as a total function. -/

namespace Sys2Proof.Machine

/-- What 10_state.md rules R21, R37 and R38 say of every reachable state, and the canonical form of memory. -/
structure State.Inv (s : State) : Prop where
  /-- Memory is in its canonical form (notes/assumptions/1.md). -/
  memCanonical : Memory.wf s.mem
  /-- 0 ≤ IP ≤ N (10_state.md rule R21). -/
  pointerInRange : s.ip ≤ s.programLength
  /-- `M_ONES & M_FLOAT` = 0 and `M_ZEROS` = `M_ONES | M_FLOAT` when `M_VALID` = 1 (10_state.md rule R37). -/
  maskConsistent : s.mValid = true → s.mOnes &&& s.mFloat = 0 ∧ s.mZeros = s.mOnes ||| s.mFloat
  /-- In `Ready` nothing has happened yet (10_state.md rule R38). -/
  readyIsFresh : s.es = .ready → s.ip = 0 ∧ s.mValid = false ∧ s.mem = []
  /-- With `ERR` ≠ 0 the engine never leaves `Ready` (10_state.md rule R38). -/
  errorIsReady : s.err ≠ none → s.es = .ready
  /-- A machine held in reset has not started (70_reset_and_hazards.md rules R220, R221). -/
  heldIsReady : s.rst = true → s.es = .ready
  /-- With `ERR` = 0 every word of the program store is legal (43_engine_write.md rule R162). -/
  programValidated : s.rst = false → s.err = none → validate s.prog = none
  /-- In `Halted` the program is done and `RESULT` is the exact sum of memory (10_state.md rule R38). -/
  haltedIsDone : s.es = .halted → s.ip = s.programLength ∧ s.result.toNat = Memory.total s.mem

/-- `k` steps from `s`, ending early where a step stops. -/
def after : Nat → State → Host.Outcome State Fault Refusal
  | 0, s => .next s
  | k + 1, s =>
    match step s with
    | .next t => after k t
    | .fault f => .fault f
    | .refused r => .refused r

/-- The instructions that a program store's words decode to, in program order, where they are all legal. -/
def instructionsOf : List Word → Option (List Instr)
  | [] => some []
  | w :: ws =>
    match decode w, instructionsOf ws with
    | .legal i, some is => some (i :: is)
    | _, _ => none

/-- The current descriptor as the source has it: absent before the first `SETMASK` (10_state.md rule R25). -/
def State.currentMask (s : State) : Option MaskDescriptor :=
  if s.mValid then some { ones := s.mOnes, zeros := s.mZeros, fmap := s.mFloat } else none

/-- Whether `WRITE` to `addr` writes the cell at `a`: the address set as a set (41_masking_strategy.md rules R124 and R127),
without the enumerator. -/
def addressed (mode : Mode) (mask : Option MaskDescriptor) (addr a : Addr) : Bool :=
  match mode, mask with
  | .valueMasking, _ => a == addr
  | .addressFloating, none => a == addr
  | .addressFloating, some d => a &&& ~~~d.fmap == (addr ||| d.ones) &&& ~~~d.fmap

/-- The value `WRITE` stores (41_masking_strategy.md rules R122, R123, R125). -/
def stored (mode : Mode) (mask : Option MaskDescriptor) (x : Value) : Value :=
  match mode, mask with
  | .valueMasking, some d => (x ||| zext64 d.ones) &&& zext64 d.zeros
  | .valueMasking, none => x
  | .addressFloating, _ => x

/-- The content of cell `a` after some instructions, from the current descriptor and its content `v` before: each `WRITE`
uses the descriptor of the last `SETMASK` before it, and the last `WRITE` that reaches the cell decides (20_memory.md rule
R59). -/
def cellAfter (mode : Mode) (a : Addr) : Option MaskDescriptor → List Instr → Value → Value
  | _, [], v => v
  | _, .setmask px p1 :: is, v => cellAfter mode a (some { ones := p1, zeros := p1 ||| px, fmap := px }) is v
  | mask, .write addr x :: is, v =>
    cellAfter mode a mask is (if addressed mode mask addr a then stored mode mask x else v)

/-- An integer text that denotes `n` (30_encoding.md rule R85): non-empty, decimal digits only. -/
def denotes (t : Line) (n : Nat) : Prop := t ≠ [] ∧ (∀ c ∈ t, c.isDigit = true) ∧ n = Nat.ofDigitChars 10 t 0

/-- An integer text without its leading zeros; a text of zeros keeps one (30_encoding.md rule R87). -/
def withoutLeadingZeros : Line → Line
  | [] => []
  | [c] => [c]
  | c :: d :: t => if c = '0' then withoutLeadingZeros (d :: t) else c :: d :: t

/-- Two states that differ at most in what no rule reads: the mask registers while `M_VALID` = 0, the one that the mode does
not read (10_state.md rule R29), and `RESULT` before the halt (10_state.md rule R31). -/
structure SameToARun (s t : State) : Prop where
  rst : s.rst = t.rst
  es : s.es = t.es
  ip : s.ip = t.ip
  mode : s.mode = t.mode
  mValid : s.mValid = t.mValid
  err : s.err = t.err
  mem : s.mem = t.mem
  prog : s.prog = t.prog
  ones : s.mValid = true → s.mOnes = t.mOnes
  zeros : s.mValid = true → s.mode = .valueMasking → s.mZeros = t.mZeros
  floating : s.mValid = true → s.mode = .addressFloating → s.mFloat = t.mFloat
  result : s.es = .halted → s.result = t.result

/-- Two outcomes of a step that a run cannot tell apart. -/
def SameOutcome : Host.Outcome State Fault Refusal → Host.Outcome State Fault Refusal → Prop
  | .next s, .next t => SameToARun s t
  | .fault f, .fault g => f = g
  | .refused q, .refused r => q = r
  | _, _ => False

end Sys2Proof.Machine
end

