-- ==== Sys2Proof/Certificates/Slice0/Obligations.lean ====
section
/-! DEFINITION. The statements for the provers. Each docstring names the rules of spec/ that the statement rests on; where
one of them is the spec's own decision or inference, or this model's choice, it says so. -/

open Sys2Proof Sys2Proof.Machine

/-! ### Encoding -/

/-- Decode and encode agree on every well-formed instruction: no bit of an operand is dropped. The binary encoding is the
spec's own decision (30_encoding.md R70 to R76, decisions D1 to D4). -/
def Obligations.DecodeOfEncodeGivesTheInstruction : Prop :=
  ∀ i : Instr, i.wf = true → decode (encode i) = .legal i

/-- Every legal word is the encoding of the one well-formed instruction it decodes to (30_encoding.md R76, R77, decisions D1
to D4). -/
def Obligations.LegalWordIsTheEncodingOfItsInstruction : Prop :=
  ∀ (w : Word) (i : Instr), decode w = .legal i → i.wf = true ∧ encode i = w

/-- The opcode map (30_encoding.md R76, decisions D1 and D2): a word is an instruction exactly when it agrees with the row's
match under the row's mask and the extra condition holds, and its operands are the row's fields. -/
def Obligations.OpcodeMapDecidesTheInstruction : Prop :=
  (∀ (w : Word) (px p1 : Bitmap), decode w = .legal (.setmask px p1) ↔
    (w &&& 0xFFFFFFFF000000000000000000#104 = 0x10000000000000000000000000#104 ∧
      px = w.extractLsb' 36 36 ∧ p1 = w.extractLsb' 0 36 ∧ px &&& p1 = 0)) ∧
  (∀ (w : Word) (addr : Addr) (value : Value), decode w = .legal (.write addr value) ↔
    (w &&& 0xF0000000000000000000000000#104 = 0x20000000000000000000000000#104 ∧
      addr = w.extractLsb' 64 36 ∧ value = w.extractLsb' 0 64))

/-- The illegal words and the error each is validated to (30_encoding.md R77, decisions D2 to D4): `op` is tested first,
then `rsv`, then the planes (60_exceptions.md R199, decision D14). -/
def Obligations.IllegalWordsAreRefusedByName : Prop :=
  ∀ w : Word,
    (decode w = .illegal .malformedInstruction ↔
      (w.extractLsb' 100 4 ≠ 0x1#4 ∧ w.extractLsb' 100 4 ≠ 0x2#4) ∨
      (w.extractLsb' 100 4 = 0x1#4 ∧ w.extractLsb' 72 28 ≠ 0#28)) ∧
    (decode w = .illegal .malformedMask ↔
      w.extractLsb' 100 4 = 0x1#4 ∧ w.extractLsb' 72 28 = 0#28 ∧ w.extractLsb' 36 36 &&& w.extractLsb' 0 36 ≠ 0#36) ∧
    decode w ≠ .illegal .malformedInteger

/-- Words of spec/95_test_vectors.md section 2.2, written out, decode to what the table there says (X1, X4, X6, X7, X9, X12,
X13). -/
def Obligations.WordsOfTheSpecDecodeAsPrinted : Prop :=
  decode 0x00000000000000000000000000#104 = .illegal .malformedInstruction ∧
  decode 0x10000001000000000000000000#104 = .illegal .malformedInstruction ∧
  decode 0x10000000000000001000000001#104 = .illegal .malformedMask ∧
  decode 0x10000001000000001000000001#104 = .illegal .malformedInstruction ∧
  decode 0x10000000FFFFFFFFF000000000#104 = .legal (.setmask 0xFFFFFFFFF#36 0#36) ∧
  decode 0x2FFFFFFFFFFFFFFFFFFFFFFFFF#104 = .legal (.write 68719476735#36 18446744073709551615#64) ∧
  decode 0x200000002A0000000000000064#104 = .legal (.write 42#36 100#64)

/-- A word laid out as bytes is 13 bytes, most-significant byte first (20_memory.md R53, decision D5), and reads back; the
bytes after it are left over. -/
def Obligations.WordLaidOutAsBytesReadsBack : Prop :=
  ∀ (w : Word) (rest : List (BitVec 8)),
    (bytesOfWord w).length = 13 ∧
    (∀ j < 13, (bytesOfWord w)[j]? = some (w.extractLsb' (96 - 8 * j) 8)) ∧
    wordOfBytes (bytesOfWord w) = w ∧
    decodeBytes (bytesOfWord w ++ rest) = some (decode w, rest)

/-! ### The Mask Descriptor Parser -/

/-- The parser's bitmaps, bit by bit (40_mask_parser_setmask.md R101, R102): S[35−p] describes bit position p, '1' sets the
bit in both, 'X' sets only `zeros`, '0' sets neither; as 64-bit quantities both have bits 63:36 zero. -/
def Obligations.ParserSetsOnesAndZerosByTheSymbols : Prop :=
  ∀ (S : List Sym) (d : MaskDescriptor), maskParser S = some d →
    (∀ p < 36,
      (d.ones.getLsbD p = true ↔ S[35 - p]? = some .one) ∧
      (d.zeros.getLsbD p = true ↔ S[35 - p]? = some .one ∨ S[35 - p]? = some .floating) ∧
      (d.zeros.getLsbD p = false ↔ S[35 - p]? = some .zero)) ∧
    ∀ p, 36 ≤ p → (zext64 d.ones).getLsbD p = false ∧ (zext64 d.zeros).getLsbD p = false

/-- `floating` holds the positions of the 'X' symbols, in ascending order, and as many as there are 'X' symbols
(40_mask_parser_setmask.md R103 and R105; the ascending order is the spec's decision D9). -/
def Obligations.ParserListsTheFloatingPositions : Prop :=
  ∀ (S : List Sym) (d : MaskDescriptor), maskParser S = some d →
    (∀ p < 36, p ∈ d.floating ↔ S[35 - p]? = some .floating) ∧
    (∀ p ∈ d.floating, p < 36) ∧
    d.floating.Pairwise (· < ·) ∧
    d.floating.length = S.count .floating

/-- Every output of the parser keeps `ones` and `floating` apart, and the three kinds of symbol add up to 36
(40_mask_parser_setmask.md R105, an inference the spec marks as its own). -/
def Obligations.ParserOutputIsConsistent : Prop :=
  ∀ (S : List Sym) (d : MaskDescriptor), maskParser S = some d →
    d.ones &&& d.fmap = 0 ∧ d.zeros = d.ones ||| d.fmap ∧
    popcount d.ones + popcount d.fmap + S.count .zero = 36

/-- In terms of the planes the parser is three wires, and the planes of a pattern are read back as the pattern
(40_mask_parser_setmask.md R104, 30_encoding.md R74; inference and decision D3 of the spec). Overlapping planes are no
pattern. -/
def Obligations.ParserIsThreeWiresOnThePlanes : Prop :=
  (∀ px p1 : Bitmap, px &&& p1 = 0 →
    ∃ S, symbolsOfPlanes px p1 = some S ∧ xPlane S = px ∧ onesPlane S = p1 ∧
      maskParser S = some { ones := p1, zeros := p1 ||| px, fmap := px }) ∧
  (∀ px p1 : Bitmap, px &&& p1 ≠ 0 → symbolsOfPlanes px p1 = none ∧ parsePlanes px p1 = none)

/-! ### SETMASK -/

/-- `SETMASK` on every pattern and in every state: the four mask registers take the descriptor, `IP` advances by 1, and
nothing else changes (40_mask_parser_setmask.md R107). The step takes that state where `ES` = `Running` and `Prog[IP]`
decodes to `SETMASK`, and no other step changes a mask register. This is the completion statement of `SETMASK`. -/
def Obligations.SetmaskWritesTheMaskRegisters : Prop :=
  (∀ (px p1 : Bitmap) (s : State), px &&& p1 = 0 →
    exec (.setmask px p1) s =
      .next { s with mOnes := p1, mZeros := p1 ||| px, mFloat := px, mValid := true, ip := s.ip + 1 }) ∧
  (∀ (px p1 : Bitmap) (w : Word) (s : State), s.rst = false → s.err = none → s.es = .running → s.prog[s.ip]? = some w →
    decode w = .legal (.setmask px p1) →
    step s = .next { s with mOnes := p1, mZeros := p1 ||| px, mFloat := px, mValid := true, ip := s.ip + 1 }) ∧
  (∀ s t : State, step s = .next t →
    (t.mOnes = s.mOnes ∧ t.mZeros = s.mZeros ∧ t.mFloat = s.mFloat ∧ t.mValid = s.mValid) ∨
    (s.es = .running ∧ s.ip < s.prog.length ∧
      ∃ w px p1, s.prog[s.ip]? = some w ∧ decode w = .legal (.setmask px p1)))

/-- The descriptor that `SETMASK` registers is the parser's output for the pattern (40_mask_parser_setmask.md R100, R107,
R104; the planes are the spec's decision D3). -/
def Obligations.SetmaskRegistersTheParsedPattern : Prop :=
  ∀ (S : List Sym) (d : MaskDescriptor) (s : State), maskParser S = some d →
    ∃ t, exec (.setmask (xPlane S) (onesPlane S)) s = .next t ∧
      t.currentMask = some d ∧ t.ip = s.ip + 1

/-- The frame of `SETMASK` (40_mask_parser_setmask.md R107, "and nothing else"): no cell of memory and no other register
changes; the mask registers and `IP` may. -/
def Obligations.SetmaskFrame : Prop :=
  ∀ (px p1 : Bitmap) (s t : State), exec (.setmask px p1) s = .next t →
    (∀ a, Memory.read t.mem a = Memory.read s.mem a) ∧ t.mem = s.mem ∧ t.es = s.es ∧ t.err = s.err ∧
    t.result = s.result ∧ t.mode = s.mode ∧ t.prog = s.prog ∧ t.rst = s.rst

/-- Overlapping planes are no pattern, and the meaning stops on them: no legal word holds them (30_encoding.md R77 (c)). That
the model answers a fault of its own is notes/assumptions/8.md. -/
def Obligations.SetmaskStopsOnOverlappingPlanes : Prop :=
  (∀ (px p1 : Bitmap) (s : State), px &&& p1 ≠ 0 → exec (.setmask px p1) s = .fault .overlappingPlanes) ∧
  (∀ (w : Word) (px p1 : Bitmap), decode w = .legal (.setmask px p1) → px &&& p1 = 0)

/-! ### The Masking Strategy unit -/

/-- `apply_value` in Value Masking, bit by bit, under the descriptor of a pattern (41_masking_strategy.md R123): '1' forces
1, '0' forces 0, 'X' passes the bit, and bits 63:36 are 0 (the last an inference the spec marks as its own). -/
def Obligations.ValueMaskingFollowsTheSymbols : Prop :=
  ∀ (px p1 : Bitmap) (s : State) (x : Value), px &&& p1 = 0 → s.mValid = true → s.mOnes = p1 → s.mZeros = p1 ||| px →
    (∀ p < 36, (applyValue .valueMasking (effectiveDescriptor s) x).getLsbD p =
      match symbolAt px p1 p with
      | some .one => true
      | some .zero => false
      | some .floating => x.getLsbD p
      | none => false) ∧
    (∀ p, 36 ≤ p → (applyValue .valueMasking (effectiveDescriptor s) x).getLsbD p = false)

/-- The two laws of 41_masking_strategy.md R128, under every descriptor a run can have: masking a value is a projection, and
every member of an address set has the same address set (the address law and the proofs are inferences the spec marks as
its own). So two bases that differ only at floating positions are treated alike (42_address_enumerator.md R147 (d)). -/
def Obligations.MaskingIsAProjection : Prop :=
  (∀ (s : State) (mode : Mode) (x : Value), (s.mValid = true → s.mZeros = s.mOnes ||| s.mFloat) →
    applyValue mode (effectiveDescriptor s) (applyValue mode (effectiveDescriptor s) x) =
      applyValue mode (effectiveDescriptor s) x) ∧
  (∀ (mode : Mode) (d : Descriptor) (a base : Addr), overlapInUse mode d = false → a ∈ applyAddresses mode d base →
    applyAddresses mode d a = applyAddresses mode d base)

/-- What each mode leaves alone, whatever the descriptor is: the address in Value Masking (41_masking_strategy.md R124), the
value in Address-Floating Masking (R125). -/
def Obligations.EachModeLeavesOneOperandAlone : Prop :=
  ∀ (d : Descriptor) (base : Addr) (x : Value),
    applyAddresses .valueMasking d base = [base] ∧ applyValue .addressFloating d x = x

/-- Before any `SETMASK` nothing is masked: the value passes at all 64 bits and the address is the one address
(41_masking_strategy.md R122; the 64-bit width of the default `zeros` is the spec's decision D8). -/
def Obligations.DefaultDescriptorMasksNothing : Prop :=
  ∀ (s : State) (mode : Mode) (x : Value) (a : Addr), s.mValid = false →
    applyValue mode (effectiveDescriptor s) x = x ∧ applyAddresses mode (effectiveDescriptor s) a = [a]

/-- The canonical base (41_masking_strategy.md R126) under the descriptor of a pattern: forcing and clearing give it in either
order, and bit by bit '1' forces 1, 'X' clears, '0' leaves the address bit. Under the default descriptor it is the base
itself. -/
def Obligations.CanonicalBaseFollowsTheSymbols : Prop :=
  (∀ (px p1 : Bitmap) (s : State) (base : Addr), px &&& p1 = 0 → s.mValid = true → s.mOnes = p1 → s.mFloat = px →
    canonicalBase (effectiveDescriptor s) base = (base ||| p1) &&& ~~~px ∧
    canonicalBase (effectiveDescriptor s) base = (base &&& ~~~px) ||| p1 ∧
    ∀ p < 36, (canonicalBase (effectiveDescriptor s) base).getLsbD p =
      match symbolAt px p1 p with
      | some .one => true
      | some .zero => base.getLsbD p
      | some .floating => false
      | none => false) ∧
  (∀ (s : State) (base : Addr), s.mValid = false → canonicalBase (effectiveDescriptor s) base = base)

/-- `apply_addresses` as a set (41_masking_strategy.md R124, R127): the address itself in Value Masking; in Address-Floating
Masking exactly the addresses that agree with the canonical base at every position that does not float (the set form is an
inference the spec marks as its own). The premise is the invariant of 10_state.md R37: an overlap has no meaning. -/
def Obligations.AddressSetIsTheSetForm : Prop :=
  ∀ (s : State) (base a : Addr),
    (a ∈ applyAddresses .valueMasking (effectiveDescriptor s) base ↔ a = base) ∧
    ((s.mValid = true → s.mOnes &&& s.mFloat = 0) →
      (a ∈ applyAddresses .addressFloating (effectiveDescriptor s) base ↔
        a &&& ~~~(effectiveDescriptor s).fmap = canonicalBase (effectiveDescriptor s) base))

/-! ### The Address Enumerator -/

/-- The enumerator's contract for every base and every bitmap: exactly 2^k addresses, no duplicate, no omission
(42_address_enumerator.md R143, R144; that the input's floating bits are cleared is the spec's decision D10). -/
def Obligations.EnumeratorIsCompleteAndDistinct : Prop :=
  ∀ (base : Addr) (fmap : Bitmap),
    (enumerate base fmap).length = 2 ^ popcount fmap ∧ (enumerate base fmap).Nodup ∧
    ∀ a, a ∈ enumerate base fmap ↔ a &&& ~~~fmap = base &&& ~~~fmap

/-- The addresses come out in ascending numeric order (42_address_enumerator.md R145: decision D9 and an inference the spec
marks as its own). -/
def Obligations.EnumeratorAscends : Prop :=
  ∀ (base : Addr) (fmap : Bitmap), (enumerate base fmap).Pairwise fun a b => a.toNat < b.toNat

/-- The sequence of the enumerator (42_address_enumerator.md R142): a_c = (base & ~fmap) | scatter(c, F) for c from 0 to
2^k − 1, where bit p_j of the scattered counter is bit j of the counter, p_j the j-th floating position, and every other
bit is 0; as numbers, scatter(c, F) is the sum of c[j] * 2^(p_j), and the OR adds without a carry. -/
def Obligations.EnumeratorScattersTheCounter : Prop :=
  ∀ (base : Addr) (fmap : Bitmap),
    (enumerate base fmap).length = 2 ^ popcount fmap ∧
    (∀ c < 2 ^ popcount fmap,
      (enumerate base fmap)[c]? = some ((base &&& ~~~fmap) ||| scatter c (positions fmap))) ∧
    (∀ c j p, (positions fmap)[j]? = some p → (scatter c (positions fmap)).getLsbD p = c.testBit j) ∧
    (∀ c p, fmap.getLsbD p = false → (scatter c (positions fmap)).getLsbD p = false) ∧
    (∀ c, (scatter c (positions fmap)).toNat =
      ∑ j ∈ Finset.range (popcount fmap), (c.testBit j).toNat * 2 ^ (positions fmap)[j]?.getD 0) ∧
    (∀ c, ((base &&& ~~~fmap) ||| scatter c (positions fmap)).toNat =
      (base &&& ~~~fmap).toNat + (scatter c (positions fmap)).toNat)

/-- The counter-driven generator emits the sequence of 42_address_enumerator.md R142, as far as it is called, and then ends;
`CNT` stays within k bits at every call (R146; the pseudocode and the width are inferences the spec marks as its own). -/
def Obligations.GeneratorEmitsTheSequence : Prop :=
  (∀ (base : Addr) (fmap : Bitmap) (calls : Nat),
    Generator.emitted calls (Generator.start base fmap) = (enumerate base fmap).take calls) ∧
  (∀ (g g' : Generator) (a : Addr), g.cnt < 2 ^ popcount g.fmap → g.next = some (a, g') →
    g'.cnt < 2 ^ popcount g'.fmap ∧ g'.fmap = g.fmap ∧ g'.base = g.base)

/-! ### Memory -/

/-- `MemWrite(a, 64, v)` sets cell a to v and changes no other cell (00_scope.md R9), on every memory in canonical form. -/
def Obligations.CellReadsBackWhatWasWritten : Prop :=
  ∀ (m : Memory) (a b : Addr) (v : Value), Memory.wf m →
    Memory.read (Memory.write a v m) b = if b = a then v else Memory.read m b

/-- Two memories in canonical form that read alike at every address are equal: whether a cell was written is no part of the
state (10_state.md R35, an inference the spec marks as its own and its decision D22; the form is notes/assumptions/1.md). -/
def Obligations.MemoriesThatReadAlikeAreEqual : Prop :=
  ∀ m n : Memory, Memory.wf m → Memory.wf n → (∀ a, Memory.read m a = Memory.read n a) → m = n

/-- Inside one `WRITE` the order of the cell writes does not matter (20_memory.md R60): any order, and any repetition, of
the same addresses leaves the same memory. -/
def Obligations.OrderOfCellWritesDoesNotMatter : Prop :=
  ∀ (m : Memory) (as bs : List Addr) (v : Value), Memory.wf m → (∀ a, a ∈ as ↔ a ∈ bs) →
    as.foldl (fun acc a => Memory.write a v acc) m = Memory.writeSet bs v m

/-! ### WRITE -/

/-- `WRITE` (43_engine_write.md R165): the transformed value goes to every address of the address set, every other cell reads
as before, `IP` advances, and no other register changes. The step does this where `ES` = `Running` and `Prog[IP]` decodes to
`WRITE`, and no other step changes memory. The premise is that the descriptor in use does not overlap, which every state
that meets the invariant satisfies (10_state.md R37). A completion statement of `WRITE`. -/
def Obligations.WriteStoresTheTransformedValue : Prop :=
  (∀ (addr : Addr) (value : Value) (s : State), Memory.wf s.mem →
    (s.mode = .addressFloating → s.mValid = true → s.mOnes &&& s.mFloat = 0) →
    ∃ m, exec (.write addr value) s = .next { s with mem := m, ip := s.ip + 1 } ∧ Memory.wf m ∧
      (∀ a, Memory.read m a =
        if a ∈ applyAddresses s.mode (effectiveDescriptor s) addr then applyValue s.mode (effectiveDescriptor s) value
        else Memory.read s.mem a) ∧
      ∀ w, s.rst = false → s.err = none → s.es = .running → s.prog[s.ip]? = some w →
        decode w = .legal (.write addr value) → step s = .next { s with mem := m, ip := s.ip + 1 }) ∧
  (∀ s t : State, step s = .next t →
    t.mem = s.mem ∨
    (s.es = .running ∧ s.ip < s.prog.length ∧
      ∃ w addr value, s.prog[s.ip]? = some w ∧ decode w = .legal (.write addr value)))

/-- `WRITE` in `MODE` = 0 (43_engine_write.md R166, an inference the spec marks as its own): one cell takes
(value | ones) & zeros at 64 bits, or the value itself before any `SETMASK`; every other cell reads as before; `IP` advances;
after a `SETMASK` the stored value is below 2^36. A completion statement of `WRITE`. -/
def Obligations.WriteInValueModeStoresOneMaskedCell : Prop :=
  ∀ (addr : Addr) (value : Value) (s : State), s.mode = .valueMasking → Memory.wf s.mem →
    ∃ t, exec (.write addr value) s = .next t ∧ t.ip = s.ip + 1 ∧
      Memory.read t.mem addr =
        (if s.mValid then (value ||| s.mOnes.setWidth 64) &&& s.mZeros.setWidth 64 else value) ∧
      (s.mValid = true → (Memory.read t.mem addr).toNat < 2 ^ 36) ∧
      ∀ a, a ≠ addr → Memory.read t.mem a = Memory.read s.mem a

/-- `WRITE` in `MODE` = 1 (43_engine_write.md R167, an inference the spec marks as its own): every address that agrees with
the canonical base off the floating positions takes the value whole; every other cell reads as before; `IP` advances. The
premise on the mask registers is the invariant of 10_state.md R37. A completion statement of `WRITE`. -/
def Obligations.WriteInAddressModeFillsTheAddressSet : Prop :=
  ∀ (addr : Addr) (value : Value) (s : State), s.mode = .addressFloating → Memory.wf s.mem →
    (s.mValid = true → s.mOnes &&& s.mFloat = 0) →
    ∃ t, exec (.write addr value) s = .next t ∧ t.ip = s.ip + 1 ∧
      ∀ a, Memory.read t.mem a =
        if s.mValid then
          if a &&& ~~~s.mFloat = (addr ||| s.mOnes) &&& ~~~s.mFloat then value else Memory.read s.mem a
        else if a = addr then value else Memory.read s.mem a

/-- The frame of `WRITE` (43_engine_write.md R165): outside the address set, computed as the meaning computes it, every cell
reads as before; the mask registers and every register but `IP` are unchanged; memory keeps its canonical form. -/
def Obligations.WriteFrame : Prop :=
  ∀ (addr : Addr) (value : Value) (s t : State), exec (.write addr value) s = .next t →
    (∀ a, a ∉ applyAddresses s.mode (effectiveDescriptor s) addr → Memory.read t.mem a = Memory.read s.mem a) ∧
    (Memory.wf s.mem → Memory.wf t.mem) ∧
    t.mValid = s.mValid ∧ t.mOnes = s.mOnes ∧ t.mZeros = s.mZeros ∧ t.mFloat = s.mFloat ∧ t.es = s.es ∧
    t.err = s.err ∧ t.result = s.result ∧ t.mode = s.mode ∧ t.prog = s.prog ∧ t.rst = s.rst

/-- Where `ones` and `floating` overlap `WRITE` in `MODE` = 1 has no meaning and stops (93_implementation_defined.md U1;
notes/assumptions/8.md). No run reaches this: see `StepKeepsTheInvariant`. -/
def Obligations.WriteStopsOnAnOverlappingDescriptor : Prop :=
  ∀ (addr : Addr) (value : Value) (s : State), s.mode = .addressFloating → s.mValid = true →
    s.mOnes &&& s.mFloat ≠ 0 → exec (.write addr value) s = .fault .overlappingDescriptor

/-- The streaming realisation of `WRITE` in `MODE` = 1 ends in the state of the atomic step (43_engine_write.md R168, an
inference the spec marks as its own). -/
def Obligations.StreamingWriteEqualsTheAtomicStep : Prop :=
  ∀ (addr : Addr) (value : Value) (s : State), s.mode = .addressFloating → Memory.wf s.mem →
    (s.mValid = true → s.mOnes &&& s.mFloat = 0) →
    exec (.write addr value) s = .next (streamWrite addr value s)

/-- One `WRITE` in `MODE` = 1 into an empty memory makes the sum of memory 2^k times the value (43_engine_write.md R167,
R170, R171), k the number of floating positions of the effective descriptor: vectors L1 to L3 of 95_test_vectors.md are
instances. -/
def Obligations.OneFillMakesTheSumTwoToTheKTimesTheValue : Prop :=
  ∀ (addr : Addr) (value : Value) (s : State), s.mode = .addressFloating → s.mem = [] →
    (s.mValid = true → s.mOnes &&& s.mFloat = 0) →
    ∃ t, exec (.write addr value) s = .next t ∧
      Memory.total t.mem = 2 ^ popcount (effectiveDescriptor s).fmap * value.toNat

/-! ### The Execution Engine -/

/-- A step runs the decoded instruction (43_engine_write.md R160, R162): in `Running` with `IP` < N and `ERR` = 0 the step is
`exec` of the instruction that `Prog[IP]` decodes to, with nothing added around it. -/
def Obligations.StepRunsTheDecodedInstruction : Prop :=
  ∀ (s : State) (w : Word) (i : Instr), s.rst = false → s.err = none → s.es = .running → s.prog[s.ip]? = some w →
    decode w = .legal i → step s = exec i s

/-- The start step (43_engine_write.md R161): in `Ready` with `ERR` = 0, `ES` becomes `Running` and nothing else changes. That
start is a step of its own is the spec's decision D17. -/
def Obligations.StartStepOnlyEntersRunning : Prop :=
  ∀ s : State, s.rst = false → s.err = none → s.es = .ready → step s = .next { s with es := .running }

/-- The halt step (43_engine_write.md R170): in `Running` with `IP` = N, `RESULT` takes the sum of all 2^36 cells, exactly
(R171; the 100-bit width is the spec's decision D19), `ES` becomes `Halted`, and nothing else changes. -/
def Obligations.HaltStepSumsTheWholeMemory : Prop :=
  ∀ s : State, s.rst = false → s.err = none → s.es = .running → s.ip = s.prog.length → Memory.wf s.mem →
    ∃ r : Total, step s = .next { s with result := r, es := .halted } ∧
      r.toNat = ∑ a ∈ Finset.range (2 ^ 36), (Memory.read s.mem (BitVec.ofNat 36 a)).toNat

/-- The table of 43_engine_write.md R160 for every state that meets the invariant: which step there is, and in which states
there is none; in particular an instruction of a validated program always completes ("no code path that can fail", R162).
Answering a fault where there is no step is notes/assumptions/7.md. -/
def Obligations.EveryStateHasTheStepOfTheTable : Prop :=
  ∀ s : State, s.Inv → s.rst = false →
    (∀ e, s.err = some e → step s = .fault (.terminalError e)) ∧
    (s.err = none → s.es = .ready → ∃ t, step s = .next t ∧ t.es = .running ∧ t.ip = 0) ∧
    (s.err = none → s.es = .running → s.ip < s.prog.length →
      ∃ w i t, s.prog[s.ip]? = some w ∧ decode w = .legal i ∧ exec i s = .next t ∧ step s = .next t ∧
        t.es = .running ∧ t.ip = s.ip + 1) ∧
    (s.err = none → s.es = .running → s.ip = s.prog.length → ∃ t, step s = .next t ∧ t.es = .halted) ∧
    (s.err = none → s.es = .halted → step s = .fault .runOver)

/-- There is no runtime failure mode (60_exceptions.md R190): from a state that meets the invariant a step is never refused,
and it stops only with an error in `ERR`, after the halt, or while `rst` is asserted, under the name of that state. Answering
a fault there is this model's choice (notes/assumptions/7.md, DESIGN CHOICE). -/
def Obligations.NoStepFailsDuringARun : Prop :=
  ∀ s : State, s.Inv →
    (∃ t, step s = .next t) ∨
    (∃ e, step s = .fault (.terminalError e) ∧ s.rst = false ∧ s.err = some e ∧ s.es = .ready) ∨
    (step s = .fault .runOver ∧ s.rst = false ∧ s.err = none ∧ s.es = .halted) ∨
    (step s = .fault .heldInReset ∧ s.rst = true)

/-- The invariant of 10_state.md R21, R37 and R38, with the canonical form of memory, is kept by every step. -/
def Obligations.StepKeepsTheInvariant : Prop :=
  ∀ s t : State, s.Inv → step s = .next t → t.Inv

/-- The invariant holds at reset. The values of `MODE` and `Prog` there are this model's (notes/assumptions/5.md, 6.md). -/
def Obligations.ResetMeetsTheInvariant : Prop := State.reset.Inv

/-- After the release of reset the state is that of the reset table (10_state.md R36) for every program store and `MODE`, and
it meets the invariant: `ES` is `Ready`, `IP` 0, `M_VALID` 0, every cell 0, and `ERR` the result of validation. -/
def Obligations.ReleaseGivesTheResetTable : Prop :=
  ∀ (mode : Mode) (prog : List Word),
    (release mode prog).Inv ∧ (release mode prog).es = .ready ∧ (release mode prog).ip = 0 ∧
    (release mode prog).mValid = false ∧ (∀ a, Memory.read (release mode prog).mem a = 0) ∧
    (release mode prog).err = validate prog ∧ (release mode prog).mode = mode ∧ (release mode prog).prog = prog ∧
    (release mode prog).rst = false

/-- `MODE`, the program store and `ERR` are constant over a run (10_state.md R24, R30, R33), and `rst` is the host's. -/
def Obligations.StepNeverChangesTheInputs : Prop :=
  ∀ s t : State, step s = .next t → t.mode = s.mode ∧ t.prog = s.prog ∧ t.err = s.err ∧ t.rst = s.rst

/-- What a step may do to `ES`, `IP`, `RESULT` and `M_VALID` (10_state.md R21, R23, R25, R31): `ES` goes from `Ready` to
`Running`, stays `Running`, or goes from `Running` to `Halted` at `IP` = N; only that last step writes `RESULT`; an
instruction adds 1 to `IP` and nothing else moves it; no step clears `M_VALID`. -/
def Obligations.StepMovesTheEngineForwardOnly : Prop :=
  ∀ s t : State, step s = .next t →
    ((s.es = .ready ∧ t.es = .running ∧ t.ip = s.ip ∧ t.result = s.result) ∨
     (s.es = .running ∧ t.es = .running ∧ s.ip < s.prog.length ∧ t.ip = s.ip + 1 ∧ t.result = s.result) ∨
     (s.es = .running ∧ t.es = .halted ∧ s.ip = s.prog.length ∧ t.ip = s.ip)) ∧
    (s.mValid = true → t.mValid = true)

/-- A valid program of N instructions runs exactly N + 2 steps and then rests in `Halted` (43_engine_write.md R163, an
inference the spec marks as its own; 70_reset_and_hazards.md R231). That `Halted` answers the fault `runOver` is this model's
choice (notes/assumptions/7.md, DESIGN CHOICE). -/
def Obligations.RunTakesExactlyNPlusTwoSteps : Prop :=
  ∀ s : State, s.Inv → s.rst = false → s.err = none → s.es = .ready →
    (∃ t, after (s.prog.length + 2) s = .next t ∧ t.es = .halted ∧ t.ip = s.prog.length ∧ step t = .fault .runOver) ∧
    ∀ k < s.prog.length + 2, ∃ u, after k s = .next u ∧ u.es ≠ .halted

/-- Memory in program order (20_memory.md R59). From any running state that meets the invariant, after each number of the
instructions left, every cell holds the value of the last of those `WRITE`s whose address set contains it, under the
descriptor of the last `SETMASK` before that `WRITE`, or what it held. From the release of reset: after the instructions,
and at the end of the run, which is `Halted` (43_engine_write.md R172), that value or 0. That these are N + 1 and N + 2 steps
is an inference the spec marks as its own (R163) on its decision D17. -/
def Obligations.EveryCellHoldsTheLastWrite : Prop :=
  (∀ (s : State) (is : List Instr), s.Inv → s.rst = false → s.err = none → s.es = .running →
    instructionsOf (s.prog.drop s.ip) = some is →
    ∀ k ≤ is.length, ∃ t, after k s = .next t ∧ t.es = .running ∧ t.ip = s.ip + k ∧
      ∀ a, Memory.read t.mem a = cellAfter s.mode a s.currentMask (is.take k) (Memory.read s.mem a)) ∧
  (∀ (mode : Mode) (prog : List Word) (is : List Instr), instructionsOf prog = some is →
    (∃ t, after (prog.length + 1) (release mode prog) = .next t ∧ t.es = .running ∧ t.ip = prog.length ∧
      ∀ a, Memory.read t.mem a = cellAfter mode a none is 0) ∧
    ∃ u, after (prog.length + 2) (release mode prog) = .next u ∧ u.es = .halted ∧ u.ip = prog.length ∧
      ∀ a, Memory.read u.mem a = cellAfter mode a none is 0)

/-- The whole machine: for every valid program store and every `MODE`, N + 2 steps after the release of reset the machine is
in `Halted` and the host reads from `RESULT` the sum, over all 2^36 addresses, of what the last `WRITE` left there
(43_engine_write.md R163, R170; 20_memory.md R59; 70_reset_and_hazards.md R233). The count of N + 2 steps in R163, and R233,
are inferences the spec marks as its own; the 100-bit width of the sum is its decision D19. -/
def Obligations.HostReadsTheSumOfTheLastWrites : Prop :=
  ∀ (mode : Mode) (prog : List Word) (is : List Instr), instructionsOf prog = some is →
    ∃ t r, after (prog.length + 2) (release mode prog) = .next t ∧ t.outResult = some r ∧
      r.toNat = ∑ a ∈ Finset.range (2 ^ 36), (cellAfter mode (BitVec.ofNat 36 a) none is 0).toNat

/-- What no rule reads cannot matter (10_state.md R26 to R29, R31; 70_reset_and_hazards.md R222): two states that differ at
most in the mask registers while `M_VALID` = 0, in the one the mode does not read, or in `RESULT` before the halt, take the
same step and end alike. So the reset values of notes/assumptions/3.md and 4.md cannot be seen by a run. -/
def Obligations.UnreadRegistersCannotMatter : Prop :=
  ∀ s t : State, SameToARun s t → SameOutcome (step s) (step t)

/-! ### Errors and validation -/

/-- `Validate` (60_exceptions.md R193, decision D25): the code is that of the first illegal word in program order (R199,
decision D14), and it is 1 for `MalformedMask` or 2 for `MalformedInstruction` (R191, R192, decision D13), never 3, which has
no binary cause (R195, an inference the spec marks as its own). The codes themselves are those of 10_state.md R30: 0 for no
error, 1, 2, and 3 for `MalformedInteger`. -/
def Obligations.FirstIllegalWordDecidesTheError : Prop :=
  (∀ (prog : List Word) (e : ParseError),
    validate prog = some e ↔
      ∃ (n : Nat) (w : Word), prog[n]? = some w ∧ decode w = .illegal e ∧
        ∀ j < n, ∃ w' i, prog[j]? = some w' ∧ decode w' = .legal i) ∧
  (∀ prog : List Word, errCode (validate prog) ≠ 3 ∧
    (errCode (validate prog) = 1 ↔ validate prog = some .malformedMask) ∧
    (errCode (validate prog) = 2 ↔ validate prog = some .malformedInstruction) ∧
    (errCode (validate prog) = 0 ↔ ∀ w ∈ prog, ∃ i, decode w = .legal i)) ∧
  errCode none = 0 ∧ errCode (some .malformedMask) = 1 ∧ errCode (some .malformedInstruction) = 2 ∧
    errCode (some .malformedInteger) = 3

/-- Fail-fast (60_exceptions.md R194, R197, R200). With any error in `ERR`, from words or from text, in any state that meets
the invariant: no step is taken, `ES` stays `Ready`, `IP` and `M_VALID` 0, every cell 0, and `RESULT` is never valid. With an
illegal word anywhere in the store the error is recorded in `ERR` and in nothing else. The zeros that `State.reset` holds in
the mask registers and `RESULT` are this model's (notes/assumptions/3.md, 4.md, DESIGN CHOICE), and so is the name of the stop
(notes/assumptions/7.md, DESIGN CHOICE). -/
def Obligations.MalformedProgramNeverRuns : Prop :=
  (∀ (s : State) (e : ParseError), s.Inv → s.err = some e →
    (∀ t, step s ≠ .next t) ∧ s.es = .ready ∧ s.ip = 0 ∧ s.mValid = false ∧ (∀ a, Memory.read s.mem a = 0) ∧
    s.outResult = none) ∧
  (∀ (mode : Mode) (prog : List Word) (e : ParseError), validate prog = some e →
    release mode prog = { State.reset with mode := mode, prog := prog, err := some e } ∧
    step (release mode prog) = .fault (.terminalError e) ∧ (release mode prog).outResult = none)

/-! ### Text -/

/-- Classification of a line (30_encoding.md R82, decision D12): a `mask` line is the prefix and the pattern; a `mem` line
is the prefix, the address text, the separator at its first occurrence, and the value text; any other line is of neither
shape and is `MalformedInstruction` (R82 (3); 60_exceptions.md R192), alone and as the first line of a text. -/
def Obligations.LinesAreClassifiedByTheirShape : Prop :=
  ∀ l : Line,
    (∀ p, classify l = .maskLine p ↔ l = maskPrefix ++ p) ∧
    (∀ a v, classify l = .memLine a v ↔
      l = memPrefix ++ a ++ memSeparator ++ v ∧
      ∀ a' v', a ++ memSeparator ++ v = a' ++ memSeparator ++ v' → a.length ≤ a'.length) ∧
    (classify l = .neither ↔ (∀ p, l ≠ maskPrefix ++ p) ∧ ∀ a v, l ≠ memPrefix ++ a ++ memSeparator ++ v) ∧
    (classify l = .neither → assembleLine l = .malformed .malformedInstruction ∧
      ∀ ls, validateText (l :: ls) = some .malformedInstruction)

/-- A `mask` line (30_encoding.md R83, R86): a pattern that is not 36 characters of '0', '1', 'X' is `MalformedMask`; any
other assembles to the format-M word whose planes mark its 'X' and '1' characters, S[35−p] at bit p. -/
def Obligations.MaskLineAssemblesToItsPlanes : Prop :=
  ∀ t : Line,
    (¬ (t.length = 36 ∧ ∀ c ∈ t, c = '0' ∨ c = '1' ∨ c = 'X') →
      assembleLine (maskPrefix ++ t) = .malformed .malformedMask) ∧
    (t.length = 36 → (∀ c ∈ t, c = '0' ∨ c = '1' ∨ c = 'X') →
      ∃ px p1, assembleLine (maskPrefix ++ t) = .word (encode (.setmask px p1)) ∧ px &&& p1 = 0 ∧
        ∀ p < 36, (px.getLsbD p = true ↔ t[35 - p]? = some 'X') ∧ (p1.getLsbD p = true ↔ t[35 - p]? = some '1'))

/-- A `mem` line (30_encoding.md R85, R86, decision D11): texts that denote an address up to 2^36−1 and a value up to
2^64−1 assemble to the format-W word of those numbers; any other is `MalformedInteger`. Which number a text denotes, its first
digit the most significant, is general knowledge the spec marks as such (20_memory.md R53; notes/assumptions/15.md,
PRESUMED). -/
def Obligations.MemLineAssemblesToItsNumbers : Prop :=
  ∀ (l a v : Line), classify l = .memLine a v →
    (∀ n x, denotes a n → denotes v x → n < 2 ^ 36 → x < 2 ^ 64 →
      assembleLine l = .word (encode (.write (BitVec.ofNat 36 n) (BitVec.ofNat 64 x)))) ∧
    ((¬ ∃ n, denotes a n ∧ n < 2 ^ 36) ∨ (¬ ∃ x, denotes v x ∧ x < 2 ^ 64) →
      assembleLine l = .malformed .malformedInteger)

/-- Every legal word has a canonical text, and assembling it gives the word back (30_encoding.md R87, an inference and
decision D12 of the spec). The order of the digits is notes/assumptions/15.md (PRESUMED). -/
def Obligations.CanonicalTextAssemblesToItsWord : Prop :=
  ∀ (w : Word) (i : Instr), decode w = .legal i → ∃ l, disassembleWord w = some l ∧ assembleLine l = .word w

/-- A text differs from the canonical text of its word in leading zeros of a numeral only (30_encoding.md R87, an inference
and decision D12 of the spec). The order of the digits is notes/assumptions/15.md (PRESUMED). -/
def Obligations.TextsOfOneWordDifferInLeadingZerosOnly : Prop :=
  ∀ (l : Line) (w : Word), assembleLine l = .word w →
    (∃ p, classify l = .maskLine p ∧ disassembleWord w = some l) ∨
    (∃ a v, classify l = .memLine a v ∧
      disassembleWord w = some (memPrefix ++ withoutLeadingZeros a ++ memSeparator ++ withoutLeadingZeros v))

/-- Fail-fast over the text (30_encoding.md R88; 60_exceptions.md R196, R199; decisions D14 and D25): the first malformed line
decides the error, and then there is no program store; otherwise line i assembles to `Prog[i]`, N is the number of lines,
and the store validates. -/
def Obligations.TextAssemblesWholeOrIsRefused : Prop :=
  ∀ ls : List Line,
    (∀ e, assembleText ls = .refusedWith e ↔
      ∃ (n : Nat) (l : Line), ls[n]? = some l ∧ assembleLine l = .malformed e ∧
        ∀ j < n, ∃ l' w, ls[j]? = some l' ∧ assembleLine l' = .word w) ∧
    (∀ prog, assembleText ls = .program prog →
      prog.length = ls.length ∧ validate prog = none ∧
      ∀ (n : Nat) (l : Line), ls[n]? = some l → ∃ w, prog[n]? = some w ∧ assembleLine l = .word w)

/-! ### The host -/

/-- The boot order of 70_reset_and_hazards.md R223 from any state of a run, with a binary program: the state is exactly the
reset state of that store and `MODE` (R220), and nothing of the earlier run survives (R221). The ports are the spec's
decision D21. This model's choices in it are the zeros of the mask registers and of `RESULT`, which R36 leaves unspecified
(notes/assumptions/3.md, 4.md), the fault while `rst` is asserted (7.md), and that the registers are reset at once (11.md), all
DESIGN CHOICE. -/
def Obligations.ResetDiscardsTheEarlierRun : Prop :=
  ∀ (s : State) (mode : Mode) (prog : List Word), s.rst = false →
    ∃ s1 s2 s3, hostAct .assertReset s = .next s1 ∧ step s1 = .fault .heldInReset ∧
      hostAct (.loadProgram prog) s1 = .next s2 ∧ hostAct (.setMode mode) s2 = .next s3 ∧
      hostAct .releaseReset s3 = .next (release mode prog)

/-- The same with program text (60_exceptions.md R196, decision D25; 70_reset_and_hazards.md R223): a text that assembles runs
as its words, and of one that does not only the error is left, which the output `ERR` shows by its code (10_state.md R30; 3
for `MalformedInteger`, 60_exceptions.md R195). This model's choices in it are the zeros of the mask registers and of `RESULT`
(notes/assumptions/3.md, 4.md), the fault of the terminal error (7.md), that `ERR` holds the verdict before the release
(12.md), and the empty store for "no `Prog`" (16.md), all DESIGN CHOICE. -/
def Obligations.TextProgramBootsAsItsWordsOrAsItsError : Prop :=
  ∀ (s : State) (mode : Mode) (ls : List Line), s.rst = true →
    ∃ s1 s2 t, hostAct (.loadText ls) s = .next s1 ∧ hostAct (.setMode mode) s1 = .next s2 ∧
      hostAct .releaseReset s2 = .next t ∧
      (∀ prog, assembleText ls = .program prog → t = release mode prog ∧ t.outErr = 0) ∧
      (∀ e, assembleText ls = .refusedWith e →
        t = { State.reset with mode := mode, prog := [], err := some e } ∧ step t = .fault (.terminalError e) ∧
        t.outErr = errCode (some e) ∧ t.outErr ≠ 0 ∧ (t.outErr = 3 ↔ e = .malformedInteger))

/-- During a run the host may only assert reset (70_reset_and_hazards.md R226): loading a program or setting `MODE` is refused
(93_implementation_defined.md U4, U6; notes/assumptions/13.md). Every move of the host keeps the invariant; that it does so
while `rst` is asserted rests on what this model holds there (notes/assumptions/11.md, 12.md, 16.md, DESIGN CHOICE). -/
def Obligations.HostMovesAreRefusedDuringARun : Prop :=
  (∀ (s : State) (prog : List Word) (ls : List Line) (mode : Mode), s.rst = false →
    hostAct (.loadProgram prog) s = .refused .hostMoveDuringRun ∧
    hostAct (.loadText ls) s = .refused .hostMoveDuringRun ∧
    hostAct (.setMode mode) s = .refused .hostMoveDuringRun) ∧
  (∀ (s t : State) (a : HostAction), s.Inv → hostAct a s = .next t → t.Inv)

/-- `RESULT` has a value for the host only while `ES` = `Halted` (10_state.md R31; 93_implementation_defined.md U5), and there
it is the sum of memory in every state that meets the invariant. -/
def Obligations.ResultIsReadOnlyAfterTheHalt : Prop :=
  ∀ (s : State) (r : Total), s.Inv → s.outResult = some r →
    s.outEs = 2 ∧ s.err = none ∧ r.toNat = Memory.total s.mem
end

