-- ==== Sys2Proof/Laws/Decode.lean ====
section
/-! SUPPORT. The fields of an encoded instruction, and what a legal verdict says of a word. -/

namespace Sys2Proof

@[simp] theorem opField_encode_setmask (px p1 : Bitmap) : opField (encode (.setmask px p1)) = opSetmask := by
  simp only [opField, encode]
  refine BitVec.eq_of_getLsbD_eq fun i hi => ?_
  have : ¬ 100 + i < 36 := by omega
  have : ¬ 100 + i - 36 < 36 := by omega
  have : ¬ 100 + i - 36 - 36 < 28 := by omega
  simp only [BitVec.getLsbD_extractLsb', BitVec.getLsbD_append, *]
  simp [hi, show 100 + i - 36 - 36 - 28 = i by omega]

@[simp] theorem rsvField_encode_setmask (px p1 : Bitmap) : rsvField (encode (.setmask px p1)) = 0 := by
  simp only [rsvField, encode]
  refine BitVec.eq_of_getLsbD_eq fun i hi => ?_
  have : ¬ 72 + i < 36 := by omega
  have : ¬ 72 + i - 36 < 36 := by omega
  have : 72 + i - 36 - 36 < 28 := by omega
  simp only [BitVec.getLsbD_extractLsb', BitVec.getLsbD_append, *]
  simp

@[simp] theorem pxField_encode_setmask (px p1 : Bitmap) : pxField (encode (.setmask px p1)) = px := by
  simp only [pxField, encode]
  refine BitVec.eq_of_getLsbD_eq fun i hi => ?_
  have : ¬ 36 + i < 36 := by omega
  have : 36 + i - 36 < 36 := by omega
  simp only [BitVec.getLsbD_extractLsb', BitVec.getLsbD_append, *]
  simp [hi]

@[simp] theorem p1Field_encode_setmask (px p1 : Bitmap) : p1Field (encode (.setmask px p1)) = p1 := by
  simp only [p1Field, encode]
  refine BitVec.eq_of_getLsbD_eq fun i hi => ?_
  have : 0 + i < 36 := by omega
  simp only [BitVec.getLsbD_extractLsb', BitVec.getLsbD_append, *]
  simp [hi]

@[simp] theorem opField_encode_write (addr : Addr) (value : Value) : opField (encode (.write addr value)) = opWrite := by
  simp only [opField, encode]
  refine BitVec.eq_of_getLsbD_eq fun i hi => ?_
  have : ¬ 100 + i < 64 := by omega
  have : ¬ 100 + i - 64 < 36 := by omega
  simp only [BitVec.getLsbD_extractLsb', BitVec.getLsbD_append, *]
  simp [hi, show 100 + i - 64 - 36 = i by omega]

@[simp] theorem addrField_encode_write (addr : Addr) (value : Value) : addrField (encode (.write addr value)) = addr := by
  simp only [addrField, encode]
  refine BitVec.eq_of_getLsbD_eq fun i hi => ?_
  have : ¬ 64 + i < 64 := by omega
  have : 64 + i - 64 < 36 := by omega
  simp only [BitVec.getLsbD_extractLsb', BitVec.getLsbD_append, *]
  simp [hi]

@[simp] theorem valueField_encode_write (addr : Addr) (value : Value) : valueField (encode (.write addr value)) = value := by
  simp only [valueField, encode]
  refine BitVec.eq_of_getLsbD_eq fun i hi => ?_
  have : 0 + i < 64 := by omega
  simp only [BitVec.getLsbD_extractLsb', BitVec.getLsbD_append, *]
  simp [hi]

/-- A word is determined by the fields of format M. -/
theorem word_ext_formatM {w w' : Word} (hop : opField w = opField w') (hrsv : rsvField w = rsvField w')
    (hpx : pxField w = pxField w') (hp1 : p1Field w = p1Field w') : w = w' := by
  refine BitVec.eq_of_getLsbD_eq fun i hi => ?_
  have bit : ∀ {s n : Nat}, w.extractLsb' s n = w'.extractLsb' s n → s ≤ i → i < s + n → w.getLsbD i = w'.getLsbD i := by
    intro s n h hs hn
    have := congrArg (fun b => b.getLsbD (i - s)) h
    simpa only [BitVec.getLsbD_extractLsb', show i - s < n by omega, decide_true, Bool.true_and,
      Nat.add_sub_cancel' hs] using this
  by_cases h1 : i < 36
  · exact bit hp1 (by omega) (by omega)
  · by_cases h2 : i < 72
    · exact bit hpx (by omega) (by omega)
    · by_cases h3 : i < 100
      · exact bit hrsv (by omega) (by omega)
      · exact bit hop (by omega) (by omega)

/-- A word is determined by the fields of format W. -/
theorem word_ext_formatW {w w' : Word} (hop : opField w = opField w') (haddr : addrField w = addrField w')
    (hvalue : valueField w = valueField w') : w = w' := by
  refine BitVec.eq_of_getLsbD_eq fun i hi => ?_
  have bit : ∀ {s n : Nat}, w.extractLsb' s n = w'.extractLsb' s n → s ≤ i → i < s + n → w.getLsbD i = w'.getLsbD i := by
    intro s n h hs hn
    have := congrArg (fun b => b.getLsbD (i - s)) h
    simpa only [BitVec.getLsbD_extractLsb', show i - s < n by omega, decide_true, Bool.true_and,
      Nat.add_sub_cancel' hs] using this
  by_cases h1 : i < 64
  · exact bit hvalue (by omega) (by omega)
  · by_cases h2 : i < 100
    · exact bit haddr (by omega) (by omega)
    · exact bit hop (by omega) (by omega)

/-- When a word is a `SETMASK` (30_encoding.md rule R76). -/
theorem decode_eq_setmask {w : Word} {px p1 : Bitmap} :
    decode w = .legal (.setmask px p1) ↔
      opField w = opSetmask ∧ rsvField w = 0 ∧ px = pxField w ∧ p1 = p1Field w ∧ planesDisjoint px p1 = true := by
  unfold decode
  split
  · rename_i hop
    split
    · grind
    · split <;> grind
  · rename_i hop
    split <;> simp [hop]

/-- When a word is a `WRITE` (30_encoding.md rule R76). -/
theorem decode_eq_write {w : Word} {addr : Addr} {value : Value} :
    decode w = .legal (.write addr value) ↔ opField w = opWrite ∧ addr = addrField w ∧ value = valueField w := by
  unfold decode
  split
  · rename_i hop
    have : opField w ≠ opWrite := by rw [hop]; decide
    split
    · simp [this]
    · split <;> simp [this]
  · split <;> grind

/-- What the decoder answers is well-formed. -/
theorem wf_of_decode {w : Word} {i : Instr} (h : decode w = .legal i) : i.wf = true := by
  cases i with
  | setmask px p1 => exact (decode_eq_setmask.mp h).2.2.2.2
  | write addr value => rfl

/-- Shifting the next byte of a word in below the bytes above it (20_memory.md rule R53). -/
theorem shift_in_byte (w : Word) (n : Nat) :
    (w >>> (n + 8)) <<< 8 ||| (w.extractLsb' n 8).setWidth 104 = w >>> n := by
  refine BitVec.eq_of_getLsbD_eq fun i hi => ?_
  simp only [BitVec.getLsbD_or, BitVec.getLsbD_shiftLeft, BitVec.getLsbD_ushiftRight, BitVec.getLsbD_setWidth,
    BitVec.getLsbD_extractLsb', hi, decide_true, Bool.true_and]
  by_cases h : i < 8
  · simp [h]
  · simp [h, show n + 8 + (i - 8) = n + i by omega]

/-- The mask and match of the `SETMASK` row, as fields. -/
theorem and_maskM_eq (w : Word) : w &&& 0xFFFFFFFF000000000000000000#104 = 0x10000000000000000000000000#104 ↔
   w.extractLsb' 100 4 = 1#4 ∧ w.extractLsb' 72 28 = 0#28 := by
  have e1 : (0xFFFFFFFF000000000000000000#104) = (BitVec.allOnes 32 ++ 0#72 : BitVec 104) := by decide
  have e2 : (0x10000000000000000000000000#104) = (0x10000000#32 ++ 0#72 : BitVec 104) := by decide
  constructor
  · intro h
    constructor
    · have := congrArg (fun b => b.extractLsb' 100 4) h
      simp only [BitVec.extractLsb'_and] at this
      rw [show BitVec.extractLsb' 100 4 0xFFFFFFFF000000000000000000#104 = BitVec.allOnes 4 from by decide, BitVec.and_allOnes] at this
      rw [this]; decide
    · have := congrArg (fun b => b.extractLsb' 72 28) h
      simp only [BitVec.extractLsb'_and] at this
      rw [show BitVec.extractLsb' 72 28 0xFFFFFFFF000000000000000000#104 = BitVec.allOnes 28 from by decide, BitVec.and_allOnes] at this
      rw [this]; decide
  · rintro ⟨h1, h2⟩
    refine word_ext_formatM ?_ ?_ ?_ ?_ <;> simp only [opField, rsvField, pxField, p1Field, BitVec.extractLsb'_and, h1, h2]
    · decide
    · decide
    · rw [show BitVec.extractLsb' 36 36 0xFFFFFFFF000000000000000000#104 = 0#36 from by decide, BitVec.and_zero]; decide
    · rw [show BitVec.extractLsb' 0 36 0xFFFFFFFF000000000000000000#104 = 0#36 from by decide, BitVec.and_zero]; decide

/-- The mask and match of the `WRITE` row, as the `op` field. -/
theorem and_maskW_eq (w : Word) : w &&& 0xF0000000000000000000000000#104 = 0x20000000000000000000000000#104 ↔
   w.extractLsb' 100 4 = 2#4 := by
  constructor
  · intro h
    have := congrArg (fun b => b.extractLsb' 100 4) h
    simp only [BitVec.extractLsb'_and] at this
    rw [show BitVec.extractLsb' 100 4 0xF0000000000000000000000000#104 = BitVec.allOnes 4 from by decide, BitVec.and_allOnes] at this
    rw [this]; decide
  · intro h1
    refine word_ext_formatW ?_ ?_ ?_ <;> simp only [opField, addrField, valueField, BitVec.extractLsb'_and, h1]
    · decide
    · rw [show BitVec.extractLsb' 64 36 0xF0000000000000000000000000#104 = 0#36 from by decide, BitVec.and_zero]; decide
    · rw [show BitVec.extractLsb' 0 64 0xF0000000000000000000000000#104 = 0#64 from by decide, BitVec.and_zero]; decide

end Sys2Proof
end

