-- ==== Sys2Proof/Laws/Enumerator.lean ====
section
/-! SUPPORT. The enumerator's parts: the ordered positions of a bitmap, the bits of `scatter`, its inverse `gather`, and the
number `scatter` stands for. -/

namespace Sys2Proof.Machine

/-! ### positions -/

@[simp] theorem mem_positions (fmap : Bitmap) (p : Nat) : p ∈ positions fmap ↔ fmap.getLsbD p = true := by
  simp only [positions, List.mem_filter, List.mem_range, and_iff_right_iff_imp]
  exact fun h => BitVec.lt_of_getLsbD h

theorem positions_ascending (fmap : Bitmap) : (positions fmap).Pairwise (· < ·) :=
  List.Pairwise.filter _ List.pairwise_lt_range

theorem positions_nodup (fmap : Bitmap) : (positions fmap).Nodup :=
  (positions_ascending fmap).imp fun h => Nat.ne_of_lt h

theorem positions_lt (fmap : Bitmap) {p : Nat} (h : p ∈ positions fmap) : p < 36 :=
  BitVec.lt_of_getLsbD ((mem_positions fmap p).mp h)

theorem positions_length_le (fmap : Bitmap) : (positions fmap).length ≤ 36 :=
  (List.length_filter_le _ _).trans (by simp)

@[simp] theorem positions_zero : positions 0#36 = [] := by decide

/-! ### The bits of scatter -/

theorem getLsbD_scatter_cons (c p : Nat) (F : List Nat) (i : Nat) :
    (scatter c (p :: F)).getLsbD i =
      ((c.testBit 0 && decide (i < 36) && decide (i = p)) || (scatter (c >>> 1) F).getLsbD i) := by
  simp only [scatter, BitVec.getLsbD_or]
  congr 1
  by_cases hc : c.testBit 0 <;> simp only [hc, if_true]
  · by_cases hi : i < 36 <;> by_cases hip : i = p <;> simp_all [eq_comm]
  · simp

theorem getLsbD_scatter_of_not_mem {c : Nat} {F : List Nat} {i : Nat} (h : i ∉ F) :
    (scatter c F).getLsbD i = false := by
  induction F generalizing c with
  | nil => simp [scatter]
  | cons p F ih =>
    simp only [List.mem_cons, not_or] at h
    rw [getLsbD_scatter_cons, ih h.2]
    simp [h.1]

/-- The counter value whose bit j is the bit of `a` at the j-th position: the inverse of `scatter`. -/
def gather (a : Addr) : List Nat → Nat
  | [] => 0
  | p :: F => (a.getLsbD p).toNat + 2 * gather a F

theorem gather_lt (a : Addr) (F : List Nat) : gather a F < 2 ^ F.length := by
  induction F with
  | nil => simp [gather]
  | cons p F ih =>
    have : (a.getLsbD p).toNat ≤ 1 := Bool.toNat_le _
    simp only [gather, List.length_cons, Nat.pow_succ]
    omega

theorem gather_testBit_zero (a : Addr) (p : Nat) (F : List Nat) : (gather a (p :: F)).testBit 0 = a.getLsbD p := by
  rw [Nat.testBit_zero, gather]
  cases a.getLsbD p <;> simp

theorem gather_shiftRight (a : Addr) (p : Nat) (F : List Nat) : gather a (p :: F) >>> 1 = gather a F := by
  have : (a.getLsbD p).toNat ≤ 1 := Bool.toNat_le _
  rw [gather, Nat.shiftRight_one]
  omega

/-- Scattering what was gathered keeps the bits at the positions and clears the others. -/
theorem getLsbD_scatter_gather (a : Addr) (F : List Nat) (i : Nat) :
    (scatter (gather a F) F).getLsbD i = (decide (i ∈ F) && a.getLsbD i) := by
  induction F with
  | nil => simp [scatter]
  | cons p F ih =>
    rw [getLsbD_scatter_cons, gather_testBit_zero, gather_shiftRight, ih]
    by_cases hip : i = p
    · subst hip
      by_cases hi : i < 36
      · by_cases hF : i ∈ F <;> simp [hi, hF]
      · simp [BitVec.getLsbD_of_ge a i (Nat.le_of_not_lt hi)]
    · simp [hip]

theorem gather_congr {a b : Addr} {F : List Nat} (h : ∀ i ∈ F, a.getLsbD i = b.getLsbD i) : gather a F = gather b F := by
  induction F with
  | nil => rfl
  | cons p F ih => simp [gather, h p (by simp), ih fun i hi => h i (by simp [hi])]

/-- Gathering what was scattered over distinct positions gives the counter back. -/
theorem gather_scatter {F : List Nat} (hF : F.Nodup) (h36 : ∀ p ∈ F, p < 36) {c : Nat} (hc : c < 2 ^ F.length) :
    gather (scatter c F) F = c := by
  induction F generalizing c with
  | nil => simp_all [gather]
  | cons p F ih =>
    obtain ⟨hp, hF⟩ := List.nodup_cons.mp hF
    have hshift : c >>> 1 < 2 ^ F.length := by
      rw [Nat.shiftRight_one]
      rw [List.length_cons, Nat.pow_succ] at hc
      omega
    have hrest : gather (scatter c (p :: F)) F = c >>> 1 := by
      rw [← ih hF (fun q hq => h36 q (by simp [hq])) hshift]
      refine gather_congr fun i hi => ?_
      have hip : i ≠ p := fun e => hp (e ▸ hi)
      simp [getLsbD_scatter_cons, hip]
    have hbit : (scatter c (p :: F)).getLsbD p = c.testBit 0 := by
      rw [getLsbD_scatter_cons, getLsbD_scatter_of_not_mem hp]
      simp [h36 p (by simp)]
    rw [gather, hrest, hbit, Nat.testBit_zero, Nat.shiftRight_one]
    rcases Nat.mod_two_eq_zero_or_one c with h | h <;> simp [h] <;> omega

/-- The bits of an enumerated address: those of the counter at the floating positions, those of the base elsewhere. -/
theorem getLsbD_enumeratedAddress (base : Addr) (fmap : Bitmap) (c i : Nat) :
    (enumeratedAddress base fmap c).getLsbD i =
      if fmap.getLsbD i then (scatter c (positions fmap)).getLsbD i else base.getLsbD i := by
  simp only [enumeratedAddress, BitVec.getLsbD_or, BitVec.getLsbD_and, BitVec.getLsbD_not]
  by_cases hf : fmap.getLsbD i
  · simp [hf]
  · rw [getLsbD_scatter_of_not_mem (mt (mem_positions fmap i).mp hf), Bool.eq_false_of_not_eq_true hf]
    by_cases hi : i < 36
    · simp [hi]
    · simp [BitVec.getLsbD_of_ge base i (Nat.le_of_not_lt hi)]

/-! ### The number scatter stands for -/

theorem scatter_toNat_cons {c p : Nat} {F : List Nat} (hF : (p :: F).Pairwise (· < ·)) (h36 : ∀ q ∈ p :: F, q < 36) :
    (scatter c (p :: F)).toNat = c % 2 * 2 ^ p + (scatter (c >>> 1) F).toNat := by
  have hp : p < 36 := h36 p (by simp)
  have hpF : p ∉ F := fun h => Nat.lt_irrefl _ ((List.pairwise_cons.mp hF).1 p h)
  have hdisj : (if c.testBit 0 then BitVec.twoPow 36 p else 0) &&& scatter (c >>> 1) F = 0 := by
    refine BitVec.eq_of_getLsbD_eq fun i hi => ?_
    by_cases hip : i = p
    · subst hip
      simp [getLsbD_scatter_of_not_mem hpF]
    · by_cases hc : c.testBit 0 <;> simp [hc, BitVec.getLsbD_twoPow, Ne.symm hip]
  have hadd := BitVec.add_eq_or_of_and_eq_zero _ _ hdisj
  rw [scatter, ← hadd, BitVec.toNat_add_of_and_eq_zero hdisj]
  congr 1
  rw [Nat.testBit_zero]
  rcases Nat.mod_two_eq_zero_or_one c with h | h
  · simp [h]
  · simp [h, BitVec.toNat_twoPow, Nat.mod_eq_of_lt (Nat.pow_lt_pow_right (by decide : 1 < 2) hp)]

/-- What is scattered above a position is a multiple of the next power of two. -/
theorem two_pow_dvd_scatter {F : List Nat} {n : Nat} (hF : F.Pairwise (· < ·)) (h36 : ∀ q ∈ F, q < 36)
    (hn : ∀ q ∈ F, n ≤ q) (c : Nat) : 2 ^ n ∣ (scatter c F).toNat := by
  induction F generalizing c with
  | nil => simp [scatter]
  | cons p F ih =>
    rw [scatter_toNat_cons hF h36]
    refine Nat.dvd_add ?_ (ih (List.pairwise_cons.mp hF).2 (fun q hq => h36 q (by simp [hq]))
      (fun q hq => hn q (by simp [hq])) _)
    exact Dvd.dvd.mul_left (Nat.pow_dvd_pow 2 (hn p (by simp))) _

/-- `popcount` counts the listed positions. -/
theorem popcount_eq_length (f : Bitmap) : popcount f = (positions f).length := by
  simp [popcount, positions, List.countP_eq_length_filter]

/-- The enumeration depends on the base only off the floating positions. -/
theorem enumerate_congr {b b' : Addr} {f : Bitmap} (h : b &&& ~~~f = b' &&& ~~~f) : enumerate b f = enumerate b' f := by
  unfold enumerate
  refine List.map_congr_left fun c _ => ?_
  simp [enumeratedAddress, h]

/-- Two counter values in range give two addresses. -/
theorem enumeratedAddress_injective {base : Addr} {f : Bitmap} {c c' : Nat} (hc : c < 2 ^ (positions f).length) (hc' : c' < 2 ^ (positions f).length)
    (h : enumeratedAddress base f c = enumeratedAddress base f c') : c = c' := by
  have hp := fun p (hp : p ∈ positions f) => positions_lt f hp
  rw [← gather_scatter (positions_nodup f) hp hc, ← gather_scatter (positions_nodup f) hp hc']
  refine gather_congr fun i hi => ?_
  have := congrArg (fun b => b.getLsbD i) h
  simpa only [getLsbD_enumeratedAddress, (mem_positions f i).mp hi, if_true] using this

/-- The number of an enumerated address: the base with its floating bits cleared, plus the scattered counter. -/
theorem enumeratedAddress_toNat (base : Addr) (f : Bitmap) (c : Nat) : (enumeratedAddress base f c).toNat = (base &&& ~~~f).toNat + (scatter c (positions f)).toNat := by
  have : (base &&& ~~~f) &&& scatter c (positions f) = 0 := by
    refine BitVec.eq_of_getLsbD_eq fun i hi => ?_
    rw [BitVec.getLsbD_and, BitVec.getLsbD_and, BitVec.getLsbD_not]
    cases hf : f.getLsbD i
    · rw [getLsbD_scatter_of_not_mem (by simp [hf])]; simp
    · simp
  rw [enumeratedAddress, ← BitVec.add_eq_or_of_and_eq_zero _ _ this, BitVec.toNat_add_of_and_eq_zero this]

end Sys2Proof.Machine
end

