-- ==== Sys2Proof/Laws/Memory.lean ====
section
/-! SUPPORT. Data memory: what a read gives after a write, that every operation keeps the canonical form, that a canonical
memory is determined by what it reads as, and the size of the sum of its cells. -/

namespace Sys2Proof.Machine

theorem Memory.cellAt_list_self (a : Nat) (v : Value) (m : Memory) (h : v = 0 → Memory.cellAt m a = 0) :
    Memory.cellAt (Memory.list a v m) a = v := by
  unfold Memory.list
  split <;> simp_all [Memory.cellAt, Config.unwrittenCell]

theorem Memory.cellAt_list_of_ne {a b : Nat} (v : Value) (m : Memory) (h : b ≠ a) :
    Memory.cellAt (Memory.list a v m) b = Memory.cellAt m b := by
  unfold Memory.list
  split <;> simp [Memory.cellAt, h]

/-- A key below every listed key is not listed. -/
theorem Memory.cellAt_of_lt {m : Memory} {a : Nat} (h : ∀ c ∈ m, a < c.1) : Memory.cellAt m a = 0 := by
  induction m with
  | nil => rfl
  | cons c m ih =>
    have hc : a ≠ c.1 := Nat.ne_of_lt (h c (by simp))
    simp [Memory.cellAt, hc, ih fun d hd => h d (by simp [hd])]

theorem Memory.cellAt_setAt_of_ne {a b : Nat} (v : Value) (m : Memory) (h : b ≠ a) :
    Memory.cellAt (Memory.setAt a v m) b = Memory.cellAt m b := by
  induction m with
  | nil => simp [Memory.setAt, Memory.cellAt_list_of_ne v _ h]
  | cons c m ih =>
    simp only [Memory.setAt]
    split
    · rw [Memory.cellAt_list_of_ne v _ h]
    · split
      · rename_i hac
        rw [Memory.cellAt_list_of_ne v _ h]
        simp [Memory.cellAt, ← hac, h]
      · simp [Memory.cellAt, ih]

theorem Memory.cellAt_setAt_self {m : Memory} (hm : m.Pairwise fun c d => c.1 < d.1) (a : Nat) (v : Value) :
    Memory.cellAt (Memory.setAt a v m) a = v := by
  induction m with
  | nil => simp [Memory.setAt, Memory.cellAt_list_self a v [] fun _ => rfl]
  | cons c m ih =>
    obtain ⟨hc, hm⟩ := List.pairwise_cons.mp hm
    simp only [Memory.setAt]
    split
    · rename_i hac
      refine Memory.cellAt_list_self _ _ _ fun _ => Memory.cellAt_of_lt fun d hd => ?_
      rcases List.mem_cons.mp hd with rfl | hd
      · exact hac
      · exact hac.trans (hc d hd)
    · split
      · rename_i hac
        exact Memory.cellAt_list_self _ _ _ fun _ => Memory.cellAt_of_lt fun d hd => hac ▸ hc d hd
      · rename_i hac
        simp [Memory.cellAt, hac, ih hm]

/-- Setting a cell decides the cell at its key and no other. -/
theorem Memory.cellAt_setAt {m : Memory} (hm : m.Pairwise fun c d => c.1 < d.1) (a b : Nat) (v : Value) :
    Memory.cellAt (Memory.setAt a v m) b = if b = a then v else Memory.cellAt m b := by
  split
  · rename_i h
    rw [h, Memory.cellAt_setAt_self hm]
  · rename_i h
    exact Memory.cellAt_setAt_of_ne v m h

theorem Memory.mem_list {a : Nat} {v : Value} {m : Memory} {c : Nat × Value} (h : c ∈ Memory.list a v m) :
    (c = (a, v) ∧ v ≠ Config.unwrittenCell) ∨ c ∈ m := by
  unfold Memory.list at h
  split at h
  · exact .inr h
  · rename_i hv
    exact (List.mem_cons.mp h).imp (fun e => ⟨e, hv⟩) id

theorem Memory.mem_setAt {a : Nat} {v : Value} {m : Memory} {c : Nat × Value} (h : c ∈ Memory.setAt a v m) :
    (c = (a, v) ∧ v ≠ Config.unwrittenCell) ∨ c ∈ m := by
  induction m with
  | nil => exact Memory.mem_list h
  | cons d m ih =>
    simp only [Memory.setAt] at h
    split at h
    · exact Memory.mem_list h
    · split at h
      · exact (Memory.mem_list h).imp id (List.mem_cons_of_mem _)
      · rcases List.mem_cons.mp h with rfl | h
        · exact .inr (by simp)
        · exact (ih h).imp id (List.mem_cons_of_mem _)

theorem Memory.pairwise_list {a : Nat} {v : Value} {m : Memory} (hm : m.Pairwise fun c d => c.1 < d.1)
    (ha : ∀ c ∈ m, a < c.1) : (Memory.list a v m).Pairwise fun c d => c.1 < d.1 := by
  unfold Memory.list
  split
  · exact hm
  · exact List.pairwise_cons.mpr ⟨ha, hm⟩

theorem Memory.pairwise_setAt {m : Memory} (hm : m.Pairwise fun c d => c.1 < d.1) (a : Nat) (v : Value) :
    (Memory.setAt a v m).Pairwise fun c d => c.1 < d.1 := by
  induction m with
  | nil => exact Memory.pairwise_list .nil (by simp)
  | cons c m ih =>
    have hcm := hm
    obtain ⟨hc, hm⟩ := List.pairwise_cons.mp hm
    simp only [Memory.setAt]
    split
    · rename_i hac
      refine Memory.pairwise_list hcm fun d hd => ?_
      rcases List.mem_cons.mp hd with rfl | hd
      · exact hac
      · exact hac.trans (hc d hd)
    · split
      · rename_i hac
        exact Memory.pairwise_list hm fun d hd => hac ▸ hc d hd
      · refine List.pairwise_cons.mpr ⟨fun d hd => ?_, ih hm⟩
        rcases Memory.mem_setAt hd with ⟨rfl, -⟩ | hd
        · dsimp only
          omega
        · exact hc d hd

/-- `MemWrite` keeps the canonical form. -/
theorem Memory.wf_write {m : Memory} (hm : Memory.wf m) (a : Addr) (v : Value) : Memory.wf (Memory.write a v m) := by
  refine ⟨Memory.pairwise_setAt hm.1 _ _, fun c hc => ?_⟩
  rcases Memory.mem_setAt hc with ⟨rfl, hv⟩ | hc
  · exact ⟨a.isLt, hv⟩
  · exact hm.2 c hc

/-- Writing an address set keeps the canonical form. -/
theorem Memory.wf_writeSet {m : Memory} (hm : Memory.wf m) (as : List Addr) (v : Value) :
    Memory.wf (Memory.writeSet as v m) := by
  induction as with
  | nil => exact hm
  | cons a as ih => exact Memory.wf_write ih a v

/-- What every address reads as after an address set was written. -/
theorem Memory.read_writeSet {m : Memory} (hm : Memory.wf m) (as : List Addr) (v : Value) (a : Addr) :
    Memory.read (Memory.writeSet as v m) a = if a ∈ as then v else Memory.read m a := by
  induction as with
  | nil => simp [Memory.writeSet]
  | cons b as ih =>
    have hwf := Memory.wf_writeSet hm as v
    simp only [Memory.writeSet, List.foldr_cons, Memory.read, Memory.write] at ih hwf ⊢
    rw [Memory.cellAt_setAt hwf.1, ih]
    by_cases h : a = b
    · simp [h]
    · simp [h, BitVec.toNat_inj]

/-- The frame of an address set needs no canonical form: an address outside the set reads as before. -/
theorem Memory.read_writeSet_of_not_mem (m : Memory) (as : List Addr) (v : Value) {a : Addr} (h : a ∉ as) :
    Memory.read (Memory.writeSet as v m) a = Memory.read m a := by
  induction as with
  | nil => rfl
  | cons b as ih =>
    simp only [List.mem_cons, not_or] at h
    simp only [Memory.writeSet, List.foldr_cons, Memory.read, Memory.write] at ih ⊢
    rw [Memory.cellAt_setAt_of_ne _ _ (by simpa [BitVec.toNat_inj] using h.1), ih h.2]

theorem Memory.cellAt_of_mem {m : Memory} (hm : m.Pairwise fun c d => c.1 < d.1) {c : Nat × Value} (hc : c ∈ m) :
    Memory.cellAt m c.1 = c.2 := by
  induction m with
  | nil => simp at hc
  | cons d m ih =>
    obtain ⟨hd, hm⟩ := List.pairwise_cons.mp hm
    rcases List.mem_cons.mp hc with rfl | hc
    · simp [Memory.cellAt]
    · simp [Memory.cellAt, (Nat.ne_of_lt (hd c hc)).symm, ih hm hc]

theorem Memory.mem_of_cellAt {m : Memory} {a : Nat} (h : Memory.cellAt m a ≠ Config.unwrittenCell) :
    (a, Memory.cellAt m a) ∈ m := by
  induction m with
  | nil => simp [Memory.cellAt] at h
  | cons d m ih =>
    by_cases hd : a = d.1
    · subst hd
      simp [Memory.cellAt]
    · simp only [Memory.cellAt, hd, if_false] at h ⊢
      exact List.mem_cons_of_mem _ (ih h)

/-- In a canonical memory a pair is listed exactly when its key reads as its value and that is no unwritten cell. -/
theorem Memory.mem_iff {m : Memory} (hm : Memory.wf m) (c : Nat × Value) :
    c ∈ m ↔ Memory.cellAt m c.1 = c.2 ∧ c.2 ≠ Config.unwrittenCell := by
  constructor
  · exact fun hc => ⟨Memory.cellAt_of_mem hm.1 hc, (hm.2 c hc).2⟩
  · rintro ⟨h, hne⟩
    have := Memory.mem_of_cellAt (m := m) (a := c.1) (h ▸ hne)
    rwa [h] at this

/-- Two lists of strictly rising keys with the same members are the same list. -/
theorem Memory.eq_of_same_members {m n : Memory} (hm : m.Pairwise fun c d => c.1 < d.1)
    (hn : n.Pairwise fun c d => c.1 < d.1) (h : ∀ c, c ∈ m ↔ c ∈ n) : m = n := by
  have nodup : ∀ {l : Memory}, l.Pairwise (fun c d => c.1 < d.1) → l.Nodup := fun hl =>
    hl.imp fun hlt he => by simp [he] at hlt
  exact ((List.perm_ext_iff_of_nodup (nodup hm) (nodup hn)).mpr h).eq_of_pairwise
    (fun c d _ _ h1 h2 => absurd (h1.trans h2) (lt_irrefl _)) hm hn

/-! ### The sum of all cells -/

theorem Memory.total_setAt_of_unlisted {m : Memory} {a : Nat} (v : Value) (h : ∀ c ∈ m, c.1 ≠ a) :
    Memory.total (Memory.setAt a v m) = v.toNat + Memory.total m := by
  have list_total : ∀ l : Memory, Memory.total (Memory.list a v l) = v.toNat + Memory.total l := fun l => by
    unfold Memory.list
    split
    · simp_all [Config.unwrittenCell]
    · rfl
  induction m with
  | nil => simp [Memory.setAt, list_total]
  | cons c m ih =>
    have hc : a ≠ c.1 := (h c (by simp)).symm
    simp only [Memory.setAt, hc, if_false]
    split
    · rw [list_total]
    · have := ih fun d hd => h d (by simp [hd])
      simp only [Memory.total, this]
      omega

theorem Memory.total_append (m n : Memory) : Memory.total (m ++ n) = Memory.total m + Memory.total n := by
  induction m with
  | nil => simp [Memory.total]
  | cons c m ih => simp [Memory.total, ih]; omega

theorem Memory.total_le_length (m : Memory) : Memory.total m ≤ m.length * (2 ^ 64 - 1) := by
  induction m with
  | nil => simp [Memory.total]
  | cons c m ih =>
    have := c.2.isLt
    simp only [Memory.total, List.length_cons]
    omega

/-- A canonical memory lists at most 2^36 cells. -/
theorem Memory.length_le {m : Memory} (hm : Memory.wf m) : m.length ≤ 2 ^ 36 := by
  have hnodup : (m.map Prod.fst).Nodup := by
    rw [List.Nodup, List.pairwise_map]
    exact hm.1.imp fun h => Nat.ne_of_lt h
  have hsub : m.map Prod.fst ⊆ List.range (2 ^ 36) := fun a ha => by
    obtain ⟨c, hc, rfl⟩ := List.mem_map.mp ha
    exact List.mem_range.mpr (hm.2 c hc).1
  simpa only [List.length_map, List.length_range] using (List.subperm_of_subset hnodup hsub).length_le

/-- The sum after distinct cells of an empty memory took one value, and which keys are listed. -/
theorem Memory.total_writeSet_nodup (as : List Addr) (v : Value) (hn : as.Nodup) : Memory.total (Memory.writeSet as v []) = as.length * v.toNat ∧ ∀ c ∈ Memory.writeSet as v [], ∃ a ∈ as, c.1 = a.toNat := by
  induction as with
  | nil => simp [Memory.writeSet, Memory.total]
  | cons a as ih =>
    obtain ⟨ha, hn⟩ := List.nodup_cons.mp hn
    obtain ⟨h1, h2⟩ := ih hn
    have e : Memory.writeSet (a :: as) v [] = Memory.setAt a.toNat v (Memory.writeSet as v []) := rfl
    rw [e]
    refine ⟨?_, fun c hc => ?_⟩
    · rw [Memory.total_setAt_of_unlisted, h1, List.length_cons, Nat.add_mul, Nat.one_mul, Nat.add_comm]
      intro c hc hca
      obtain ⟨b, hb, hcb⟩ := h2 c hc
      exact ha (BitVec.toNat_inj.mp (hca.symm.trans hcb) ▸ hb)
    · rcases Memory.mem_setAt hc with ⟨rfl, -⟩ | hc
      · exact ⟨a, by simp, rfl⟩
      · obtain ⟨b, hb, h⟩ := h2 c hc
        exact ⟨b, by simp [hb], h⟩

/-- The sum over the listed pairs is the sum over all keys below a bound on them. -/
theorem Memory.total_eq_sum {m : Memory} (hp : m.Pairwise fun c d => c.1 < d.1) (n : Nat) (hb : ∀ c ∈ m, c.1 < n) :
   Memory.total m = ∑ a ∈ Finset.range n, (Memory.cellAt m a).toNat := by
  induction m with
  | nil => simp [Memory.total, Memory.cellAt, Config.unwrittenCell]
  | cons c m ih =>
    obtain ⟨hc, hp⟩ := List.pairwise_cons.mp hp
    rw [Memory.total, ih hp (fun d hd => hb d (by simp [hd]))]
    have hcn : c.1 ∈ Finset.range n := Finset.mem_range.mpr (hb c (by simp))
    rw [← Finset.add_sum_erase _ _ hcn, ← Finset.add_sum_erase _ _ hcn]
    have h0 : Memory.cellAt m c.1 = 0 := Memory.cellAt_of_lt hc
    have h1 : Memory.cellAt (c :: m) c.1 = c.2 := by simp [Memory.cellAt]
    have h2 : ∀ a ∈ (Finset.range n).erase c.1, (Memory.cellAt (c :: m) a).toNat = (Memory.cellAt m a).toNat := by
      intro a ha
      have : a ≠ c.1 := (Finset.mem_erase.mp ha).1
      simp [Memory.cellAt, this]
    rw [Finset.sum_congr rfl h2]
    show _ = (Memory.cellAt (c :: m) c.1).toNat + _
    rw [h0, h1]; simp

/-- The sum over the listed pairs is the sum over all 2^36 cells. -/
theorem Memory.total_eq_sum_read {m : Memory} (hm : Memory.wf m) : Memory.total m = ∑ a ∈ Finset.range (2 ^ 36), (Memory.read m (BitVec.ofNat 36 a)).toNat := by
  rw [Memory.total_eq_sum hm.1 (2 ^ 36) (fun c hc => (hm.2 c hc).1)]
  refine Finset.sum_congr rfl fun a ha => ?_
  rw [Memory.read, BitVec.toNat_ofNat, Nat.mod_eq_of_lt (Finset.mem_range.mp ha)]

/-- The largest sum of all cells (43_engine_write.md rule R171). -/
theorem Memory.total_le {m : Memory} (hm : Memory.wf m) : Memory.total m ≤ 2 ^ 36 * (2 ^ 64 - 1) :=
  (Memory.total_le_length m).trans (Nat.mul_le_mul_right _ (Memory.length_le hm))

/-- The 100-bit result holds the sum exactly (43_engine_write.md rule R171). -/
theorem Memory.total_le_and_resultOf (m : Memory) (hm : Memory.wf m) : Memory.total m ≤ 2 ^ 36 * (2 ^ 64 - 1) ∧ (resultOf m).toNat = Memory.total m := by
  refine ⟨Memory.total_le hm, ?_⟩
  have := Memory.total_le hm
  rw [resultOf, BitVec.toNat_ofNat, Nat.mod_eq_of_lt]
  exact this.trans_lt (by decide)

/-- A left fold of cell writes is `writeSet` of the reversed list. -/
theorem Memory.foldl_write_eq (m : Memory) (as : List Addr) (v : Value) : as.foldl (fun acc a => Memory.write a v acc) m = Memory.writeSet as.reverse v m := by
  simp [Memory.writeSet, List.foldr_reverse]

end Sys2Proof.Machine
end

