-- ==== Sys2Proof/Laws/State.lean ====
section
/-! SUPPORT. One lemma per field of State and per named update: what the update makes of the field. -/

namespace Sys2Proof.Machine

/-! ### State.advance -/

@[simp] theorem State.advance_rst (s : State) : s.advance.rst = s.rst := rfl
@[simp] theorem State.advance_es (s : State) : s.advance.es = s.es := rfl
@[simp] theorem State.advance_ip (s : State) : s.advance.ip = s.ip + 1 := rfl
@[simp] theorem State.advance_mode (s : State) : s.advance.mode = s.mode := rfl
@[simp] theorem State.advance_mValid (s : State) : s.advance.mValid = s.mValid := rfl
@[simp] theorem State.advance_mOnes (s : State) : s.advance.mOnes = s.mOnes := rfl
@[simp] theorem State.advance_mZeros (s : State) : s.advance.mZeros = s.mZeros := rfl
@[simp] theorem State.advance_mFloat (s : State) : s.advance.mFloat = s.mFloat := rfl
@[simp] theorem State.advance_err (s : State) : s.advance.err = s.err := rfl
@[simp] theorem State.advance_result (s : State) : s.advance.result = s.result := rfl
@[simp] theorem State.advance_mem (s : State) : s.advance.mem = s.mem := rfl
@[simp] theorem State.advance_prog (s : State) : s.advance.prog = s.prog := rfl

/-! ### State.setMaskBitmaps -/

@[simp] theorem State.setMaskBitmaps_rst (o z f : Bitmap) (s : State) : (s.setMaskBitmaps o z f).rst = s.rst := rfl
@[simp] theorem State.setMaskBitmaps_es (o z f : Bitmap) (s : State) : (s.setMaskBitmaps o z f).es = s.es := rfl
@[simp] theorem State.setMaskBitmaps_ip (o z f : Bitmap) (s : State) : (s.setMaskBitmaps o z f).ip = s.ip := rfl
@[simp] theorem State.setMaskBitmaps_mode (o z f : Bitmap) (s : State) : (s.setMaskBitmaps o z f).mode = s.mode := rfl
@[simp] theorem State.setMaskBitmaps_mValid (o z f : Bitmap) (s : State) : (s.setMaskBitmaps o z f).mValid = s.mValid := rfl
@[simp] theorem State.setMaskBitmaps_mOnes (o z f : Bitmap) (s : State) : (s.setMaskBitmaps o z f).mOnes = o := rfl
@[simp] theorem State.setMaskBitmaps_mZeros (o z f : Bitmap) (s : State) : (s.setMaskBitmaps o z f).mZeros = z := rfl
@[simp] theorem State.setMaskBitmaps_mFloat (o z f : Bitmap) (s : State) : (s.setMaskBitmaps o z f).mFloat = f := rfl
@[simp] theorem State.setMaskBitmaps_err (o z f : Bitmap) (s : State) : (s.setMaskBitmaps o z f).err = s.err := rfl
@[simp] theorem State.setMaskBitmaps_result (o z f : Bitmap) (s : State) : (s.setMaskBitmaps o z f).result = s.result := rfl
@[simp] theorem State.setMaskBitmaps_mem (o z f : Bitmap) (s : State) : (s.setMaskBitmaps o z f).mem = s.mem := rfl
@[simp] theorem State.setMaskBitmaps_prog (o z f : Bitmap) (s : State) : (s.setMaskBitmaps o z f).prog = s.prog := rfl

/-! ### State.markMaskValid -/

@[simp] theorem State.markMaskValid_rst (s : State) : s.markMaskValid.rst = s.rst := rfl
@[simp] theorem State.markMaskValid_es (s : State) : s.markMaskValid.es = s.es := rfl
@[simp] theorem State.markMaskValid_ip (s : State) : s.markMaskValid.ip = s.ip := rfl
@[simp] theorem State.markMaskValid_mode (s : State) : s.markMaskValid.mode = s.mode := rfl
@[simp] theorem State.markMaskValid_mValid (s : State) : s.markMaskValid.mValid = true := rfl
@[simp] theorem State.markMaskValid_mOnes (s : State) : s.markMaskValid.mOnes = s.mOnes := rfl
@[simp] theorem State.markMaskValid_mZeros (s : State) : s.markMaskValid.mZeros = s.mZeros := rfl
@[simp] theorem State.markMaskValid_mFloat (s : State) : s.markMaskValid.mFloat = s.mFloat := rfl
@[simp] theorem State.markMaskValid_err (s : State) : s.markMaskValid.err = s.err := rfl
@[simp] theorem State.markMaskValid_result (s : State) : s.markMaskValid.result = s.result := rfl
@[simp] theorem State.markMaskValid_mem (s : State) : s.markMaskValid.mem = s.mem := rfl
@[simp] theorem State.markMaskValid_prog (s : State) : s.markMaskValid.prog = s.prog := rfl

/-! ### State.writeCells -/

@[simp] theorem State.writeCells_rst (as : List Addr) (v : Value) (s : State) : (s.writeCells as v).rst = s.rst := rfl
@[simp] theorem State.writeCells_es (as : List Addr) (v : Value) (s : State) : (s.writeCells as v).es = s.es := rfl
@[simp] theorem State.writeCells_ip (as : List Addr) (v : Value) (s : State) : (s.writeCells as v).ip = s.ip := rfl
@[simp] theorem State.writeCells_mode (as : List Addr) (v : Value) (s : State) : (s.writeCells as v).mode = s.mode := rfl
@[simp] theorem State.writeCells_mValid (as : List Addr) (v : Value) (s : State) : (s.writeCells as v).mValid = s.mValid := rfl
@[simp] theorem State.writeCells_mOnes (as : List Addr) (v : Value) (s : State) : (s.writeCells as v).mOnes = s.mOnes := rfl
@[simp] theorem State.writeCells_mZeros (as : List Addr) (v : Value) (s : State) : (s.writeCells as v).mZeros = s.mZeros := rfl
@[simp] theorem State.writeCells_mFloat (as : List Addr) (v : Value) (s : State) : (s.writeCells as v).mFloat = s.mFloat := rfl
@[simp] theorem State.writeCells_err (as : List Addr) (v : Value) (s : State) : (s.writeCells as v).err = s.err := rfl
@[simp] theorem State.writeCells_result (as : List Addr) (v : Value) (s : State) : (s.writeCells as v).result = s.result := rfl
@[simp] theorem State.writeCells_mem (as : List Addr) (v : Value) (s : State) : (s.writeCells as v).mem = Memory.writeSet as v s.mem := rfl
@[simp] theorem State.writeCells_prog (as : List Addr) (v : Value) (s : State) : (s.writeCells as v).prog = s.prog := rfl

/-! ### State.takeError -/

@[simp] theorem State.takeError_rst (e : ParseError) (s : State) : (s.takeError e).rst = s.rst := rfl
@[simp] theorem State.takeError_es (e : ParseError) (s : State) : (s.takeError e).es = s.es := rfl
@[simp] theorem State.takeError_ip (e : ParseError) (s : State) : (s.takeError e).ip = s.ip := rfl
@[simp] theorem State.takeError_mode (e : ParseError) (s : State) : (s.takeError e).mode = s.mode := rfl
@[simp] theorem State.takeError_mValid (e : ParseError) (s : State) : (s.takeError e).mValid = s.mValid := rfl
@[simp] theorem State.takeError_mOnes (e : ParseError) (s : State) : (s.takeError e).mOnes = s.mOnes := rfl
@[simp] theorem State.takeError_mZeros (e : ParseError) (s : State) : (s.takeError e).mZeros = s.mZeros := rfl
@[simp] theorem State.takeError_mFloat (e : ParseError) (s : State) : (s.takeError e).mFloat = s.mFloat := rfl
@[simp] theorem State.takeError_err (e : ParseError) (s : State) : (s.takeError e).err = some e := rfl
@[simp] theorem State.takeError_result (e : ParseError) (s : State) : (s.takeError e).result = s.result := rfl
@[simp] theorem State.takeError_mem (e : ParseError) (s : State) : (s.takeError e).mem = s.mem := rfl
@[simp] theorem State.takeError_prog (e : ParseError) (s : State) : (s.takeError e).prog = s.prog := rfl

/-! ### State.start -/

@[simp] theorem State.start_rst (s : State) : s.start.rst = s.rst := rfl
@[simp] theorem State.start_es (s : State) : s.start.es = .running := rfl
@[simp] theorem State.start_ip (s : State) : s.start.ip = s.ip := rfl
@[simp] theorem State.start_mode (s : State) : s.start.mode = s.mode := rfl
@[simp] theorem State.start_mValid (s : State) : s.start.mValid = s.mValid := rfl
@[simp] theorem State.start_mOnes (s : State) : s.start.mOnes = s.mOnes := rfl
@[simp] theorem State.start_mZeros (s : State) : s.start.mZeros = s.mZeros := rfl
@[simp] theorem State.start_mFloat (s : State) : s.start.mFloat = s.mFloat := rfl
@[simp] theorem State.start_err (s : State) : s.start.err = s.err := rfl
@[simp] theorem State.start_result (s : State) : s.start.result = s.result := rfl
@[simp] theorem State.start_mem (s : State) : s.start.mem = s.mem := rfl
@[simp] theorem State.start_prog (s : State) : s.start.prog = s.prog := rfl

/-! ### State.halt -/

@[simp] theorem State.halt_rst (s : State) : s.halt.rst = s.rst := rfl
@[simp] theorem State.halt_es (s : State) : s.halt.es = .halted := rfl
@[simp] theorem State.halt_ip (s : State) : s.halt.ip = s.ip := rfl
@[simp] theorem State.halt_mode (s : State) : s.halt.mode = s.mode := rfl
@[simp] theorem State.halt_mValid (s : State) : s.halt.mValid = s.mValid := rfl
@[simp] theorem State.halt_mOnes (s : State) : s.halt.mOnes = s.mOnes := rfl
@[simp] theorem State.halt_mZeros (s : State) : s.halt.mZeros = s.mZeros := rfl
@[simp] theorem State.halt_mFloat (s : State) : s.halt.mFloat = s.mFloat := rfl
@[simp] theorem State.halt_err (s : State) : s.halt.err = s.err := rfl
@[simp] theorem State.halt_result (s : State) : s.halt.result = resultOf s.mem := rfl
@[simp] theorem State.halt_mem (s : State) : s.halt.mem = s.mem := rfl
@[simp] theorem State.halt_prog (s : State) : s.halt.prog = s.prog := rfl

end Sys2Proof.Machine
end

