-- ==== Sys2Proof/Laws/Symbols.lean ====
section
/-! SUPPORT. The bits of the bitmaps that a pattern gives, and the symbols that a pair of planes gives. -/

namespace Sys2Proof.Machine

/-- Bit p of `bitmapOf f S` is `f` of the symbol p places from the right end of S. -/
theorem getLsbD_bitmapOf (f : Sym → Bool) (S : List Sym) {p : Nat} (hp : p < 36) :
    (bitmapOf f S).getLsbD p = (S[S.length - 1 - p]?.map f == some true && decide (p < S.length)) := by
  induction S using List.reverseRecOn generalizing p with
  | nil => simp [bitmapOf]
  | append_singleton S x ih =>
    have hstep : bitmapOf f (S ++ [x]) = bitmapOf f S <<< 1 ||| (if f x then 1#36 else 0#36) := by
      simp [bitmapOf, List.foldl_append]
    rw [hstep, BitVec.getLsbD_or, BitVec.getLsbD_shiftLeft]
    cases p with
    | zero => cases hx : f x <;> simp [hx]
    | succ p =>
      have hone : (if f x then 1#36 else 0#36).getLsbD (p + 1) = false := by
        cases f x <;> simp
      rw [hone, show p + 1 - 1 = p from rfl, ih (by omega)]
      by_cases hlen : p < S.length
      · have : (S ++ [x])[(S ++ [x]).length - 1 - (p + 1)]? = S[S.length - 1 - p]? := by
          rw [List.getElem?_append_left (by simp; omega)]
          congr 1
          simp
          omega
        rw [this]
        simp [hp, hlen]
      · simp [hp, hlen]

/-- The form used for patterns of the full 36 symbols. -/
theorem getLsbD_bitmapOf_pattern {f : Sym → Bool} {S : List Sym} (hS : S.length = 36) {p : Nat} (hp : p < 36) :
    (bitmapOf f S).getLsbD p = (S[35 - p]?.map f == some true) := by
  rw [getLsbD_bitmapOf f S hp, hS]
  simp [hp]

theorem symbolAt_eq_none {px p1 : Bitmap} {p : Nat} :
    symbolAt px p1 p = none ↔ px.getLsbD p = true ∧ p1.getLsbD p = true := by
  unfold symbolAt
  cases px.getLsbD p <;> cases p1.getLsbD p <;> simp

theorem planesDisjoint_iff {px p1 : Bitmap} :
    planesDisjoint px p1 = true ↔ ∀ p < 36, symbolAt px p1 p ≠ none := by
  simp only [planesDisjoint, beq_iff_eq, ne_eq, symbolAt_eq_none]
  constructor
  · intro h p _ hb
    have := congrArg (fun b => b.getLsbD p) h
    simp [BitVec.getLsbD_and, hb] at this
  · intro h
    refine BitVec.eq_of_getLsbD_eq fun p hp => ?_
    have := h p hp
    rw [BitVec.getLsbD_and]
    cases h1 : px.getLsbD p <;> cases h2 : p1.getLsbD p <;> simp_all

/-- The symbols below a position: one for each position, the highest first. -/
theorem symbolsBelow_eq_some {px p1 : Bitmap} {n : Nat} {S : List Sym} (h : symbolsBelow px p1 n = some S) :
    S.length = n ∧ ∀ p < n, S[n - 1 - p]? = symbolAt px p1 p := by
  induction n generalizing S with
  | zero => simp_all [symbolsBelow]
  | succ n ih =>
    simp only [symbolsBelow] at h
    split at h
    · rename_i x rest hx hrest
      obtain ⟨hlen, hsym⟩ := ih hrest
      cases h
      refine ⟨by simp [hlen], fun p hp => ?_⟩
      rcases Nat.lt_succ_iff_lt_or_eq.mp hp with hp | rfl
      · rw [← hsym p hp, show n + 1 - 1 - p = (n - 1 - p) + 1 by omega, List.getElem?_cons_succ]
      · simp [hx]
    · cases h

theorem symbolsBelow_isSome {px p1 : Bitmap} {n : Nat} :
    (symbolsBelow px p1 n).isSome = true ↔ ∀ p < n, symbolAt px p1 p ≠ none := by
  induction n with
  | zero => simp [symbolsBelow]
  | succ n ih =>
    simp only [symbolsBelow]
    constructor
    · intro h p hp
      split at h
      · rename_i x rest hx hrest
        rcases Nat.lt_succ_iff_lt_or_eq.mp hp with hp | rfl
        · exact ih.mp (by simp [hrest]) p hp
        · simp [hx]
      · cases h
    · intro h
      have hn := h n (by omega)
      have hrest := ih.mpr fun p hp => h p (by omega)
      obtain ⟨x, hx⟩ := Option.ne_none_iff_exists'.mp hn
      obtain ⟨rest, hr⟩ := Option.isSome_iff_exists.mp hrest
      simp [hx, hr]

/-- What the parser accepts and answers, as bitmaps of the pattern. -/
theorem maskParser_eq_some {S : List Sym} {d : MaskDescriptor} (h : maskParser S = some d) : S.length = 36 ∧
   d = { ones := bitmapOf (fun x => x == .one) S, zeros := bitmapOf (fun x => x == .one || x == .floating) S,
         fmap := bitmapOf (fun x => x == .floating) S } := by
  unfold maskParser at h
  split at h
  · rename_i hl; cases h; exact ⟨hl, rfl⟩
  · cases h

/-- As many bits are set in `bitmapOf f S` as symbols of S satisfy `f`. -/
theorem countP_bitmapOf (S : List Sym) (hl : S.length = 36) (f : Sym → Bool) :
    (List.range 36).countP (fun p => (bitmapOf f S).getLsbD p) = S.countP f := by
  have h1 : (List.range 36).countP (fun p => (bitmapOf f S).getLsbD p) = (List.range 36).countP (fun p => S[35-p]?.map f == some true) := by
    apply List.countP_congr
    intro p hp
    rw [getLsbD_bitmapOf_pattern hl (List.mem_range.mp hp)]
  rw [h1]
  have h2 : S = (List.range 36).map (fun p => S[p]?.getD .zero) := by
    apply List.ext_getElem
    · simp [hl]
    · intro i h1 h2
      simp [h1]
  have h3 : (List.range 36).countP (fun p => S[35-p]?.map f == some true) = ((List.range 36).map fun p => 35 - p).countP (fun p => S[p]?.map f == some true) := by
    rw [List.countP_map]; rfl
  rw [h3]
  have h4 : ((List.range 36).map fun p => 35 - p) = (List.range 36).reverse := by decide
  rw [h4, List.countP_reverse]
  conv_rhs => rw [h2, List.countP_map]
  apply List.countP_congr
  intro p hp
  have : p < S.length := by rw [hl]; exact List.mem_range.mp hp
  simp [this]

/-- The planes of a pattern never overlap. -/
theorem planes_of_pattern_disjoint (S : List Sys2Proof.Sym) (hl : S.length = 36) : xPlane S &&& onesPlane S = 0 := by
  refine BitVec.eq_of_getLsbD_eq fun p hp => ?_
  rw [BitVec.getLsbD_and, xPlane, onesPlane, getLsbD_bitmapOf_pattern hl hp, getLsbD_bitmapOf_pattern hl hp]
  have : 35 - p < S.length := by omega
  rw [List.getElem?_eq_getElem this]
  cases S[35-p] <;> simp

end Sys2Proof.Machine
end

