-- ==== Sys2Proof/Laws/Exec.lean ====
section
/-! SUPPORT. What the two meanings, the step and validation can do, said once each, so that no proof unfolds them. -/

namespace Sys2Proof.Machine

/-! ### The meanings -/

theorem execSetmask_of_disjoint {px p1 : Bitmap} (h : planesDisjoint px p1 = true) (s : State) :
    execSetmask px p1 s = .next (s.setMaskBitmaps p1 (p1 ||| px) px).markMaskValid.advance := by
  simp [execSetmask, parsePlanes, h]

theorem execSetmask_of_overlap {px p1 : Bitmap} (h : planesDisjoint px p1 = false) (s : State) :
    execSetmask px p1 s = .fault .overlappingPlanes := by
  simp [execSetmask, parsePlanes, h]

/-- The state `WRITE` makes where it runs. -/
def State.written (addr : Addr) (value : Value) (s : State) : State :=
  (s.writeCells (applyAddresses s.mode (effectiveDescriptor s) addr)
    (applyValue s.mode (effectiveDescriptor s) value)).advance

theorem execWrite_of_no_overlap {s : State} (h : overlapInUse s.mode (effectiveDescriptor s) = false) (addr : Addr)
    (value : Value) : execWrite addr value s = .next (s.written addr value) := by
  simp [execWrite, h, State.written]

theorem execWrite_of_overlap {s : State} (h : overlapInUse s.mode (effectiveDescriptor s) = true) (addr : Addr)
    (value : Value) : execWrite addr value s = .fault .overlappingDescriptor := by
  simp [execWrite, h]

/-- The zero extension of a bitmap, cut to 36 bits, is the bitmap. -/
@[simp] theorem setWidth_zext64 (b : Bitmap) : (zext64 b).setWidth 36 = b := by
  refine BitVec.eq_of_getLsbD_eq fun i hi => ?_
  simp only [zext64, BitVec.getLsbD_setWidth, hi, show i < 64 by omega, decide_true, Bool.true_and]

/-- No descriptor in use overlaps where the mask registers do not. -/
theorem overlapInUse_eq_false {s : State} (h : s.mValid = true → s.mOnes &&& s.mFloat = 0) :
    overlapInUse s.mode (effectiveDescriptor s) = false := by
  unfold overlapInUse effectiveDescriptor
  split
  · rfl
  · cases hv : s.mValid
    · simp [defaultDescriptor]
    · simp [h hv]

/-- Everything an instruction can do when it answers a next state. -/
theorem exec_next_cases {i : Instr} {s t : State} (h : exec i s = .next t) :
    (∃ px p1, i = .setmask px p1 ∧ planesDisjoint px p1 = true ∧
      t = (s.setMaskBitmaps p1 (p1 ||| px) px).markMaskValid.advance) ∨
    (∃ addr value, i = .write addr value ∧ overlapInUse s.mode (effectiveDescriptor s) = false ∧
      t = s.written addr value) := by
  cases i with
  | setmask px p1 =>
    cases hd : planesDisjoint px p1
    · simp [exec, execSetmask_of_overlap hd] at h
    · simp only [exec, execSetmask_of_disjoint hd, Host.Outcome.next.injEq] at h
      exact .inl ⟨px, p1, rfl, hd, h.symm⟩
  | write addr value =>
    cases ho : overlapInUse s.mode (effectiveDescriptor s)
    · simp only [exec, execWrite_of_no_overlap ho, Host.Outcome.next.injEq] at h
      exact .inr ⟨addr, value, rfl, rfl, h.symm⟩
    · simp [exec, execWrite_of_overlap ho] at h

/-! ### The step -/

/-- Everything a step can do when it answers a next state. -/
theorem step_next_cases {s t : State} (h : step s = .next t) :
    s.rst = false ∧ s.err = none ∧
      ((s.es = .ready ∧ t = s.start) ∨
       (∃ w i, s.es = .running ∧ s.fetch = some w ∧ decode w = .legal i ∧ exec i s = .next t) ∨
       (s.es = .running ∧ s.fetch = none ∧ s.ip = s.programLength ∧ t = s.halt)) := by
  unfold step at h
  split at h
  · cases h
  · rename_i hrst
    refine ⟨by simpa using hrst, ?_⟩
    split at h
    · cases h
    · rename_i herr
      refine ⟨herr, ?_⟩
      split at h
      · rename_i hes
        cases h
        exact .inl ⟨hes, rfl⟩
      · cases h
      · rename_i hes
        split at h
        · rename_i w hw
          split at h
          · rename_i i hi
            exact .inr (.inl ⟨w, i, hes, hw, hi, h⟩)
          · cases h
        · rename_i hw
          split at h
          · rename_i hip
            cases h
            exact .inr (.inr ⟨hes, hw, hip, rfl⟩)
          · cases h

theorem step_ready {s : State} (hr : s.rst = false) (he : s.err = none) (hs : s.es = .ready) : step s = .next s.start := by
  simp [step, hr, he, hs]

theorem step_running {s : State} {w : Word} {i : Instr} (hr : s.rst = false) (he : s.err = none) (hs : s.es = .running)
    (hw : s.fetch = some w) (hi : decode w = .legal i) : step s = exec i s := by
  simp [step, hr, he, hs, hw, hi]

theorem step_at_end {s : State} (hr : s.rst = false) (he : s.err = none) (hs : s.es = .running)
    (hip : s.ip = s.programLength) : step s = .next s.halt := by
  have : s.fetch = none := by simp [State.fetch, hip, State.programLength]
  simp [step, hr, he, hs, this, hip]

theorem step_of_error {s : State} {e : ParseError} (hr : s.rst = false) (he : s.err = some e) :
    step s = .fault (.terminalError e) := by
  simp [step, hr, he]

theorem step_of_halted {s : State} (hr : s.rst = false) (he : s.err = none) (hs : s.es = .halted) :
    step s = .fault .runOver := by
  simp [step, hr, he, hs]

theorem step_of_held {s : State} (hr : s.rst = true) : step s = .fault .heldInReset := by
  simp [step, hr]

/-- With an error in `ERR` there is no step, whatever else the state holds (60_exceptions.md rule R200). -/
theorem step_ne_next_of_error {s : State} (he : s.err ≠ none) (t : State) : step s ≠ .next t := fun h =>
  he (step_next_cases h).2.1

theorem fetch_eq_some {s : State} {w : Word} (h : s.fetch = some w) : s.ip < s.programLength :=
  (List.getElem?_eq_some_iff.mp h).1

/-! ### Validation -/

@[simp] theorem validate_nil : validate [] = none := rfl

theorem validate_cons_legal {w : Word} {i : Instr} (h : decode w = .legal i) (ws : List Word) :
    validate (w :: ws) = validate ws := by
  simp [validate, h]

theorem validate_cons_illegal {w : Word} {e : ParseError} (h : decode w = .illegal e) (ws : List Word) :
    validate (w :: ws) = some e := by
  simp [validate, h]

/-- A valid program store holds legal words only. -/
theorem validate_eq_none {ws : List Word} : validate ws = none ↔ ∀ w ∈ ws, ∃ i, decode w = .legal i := by
  induction ws with
  | nil => simp
  | cons w ws ih =>
    cases hd : decode w with
    | legal i => simp [validate_cons_legal hd, ih, hd]
    | illegal e => simp [validate_cons_illegal hd, hd]

theorem fetch_legal {s : State} {w : Word} (hv : validate s.prog = none) (hw : s.fetch = some w) :
    ∃ i, decode w = .legal i :=
  validate_eq_none.mp hv w (List.mem_of_getElem? hw)

theorem instructionsOf_eq_some {ws : List Word} (h : validate ws = none) : ∃ is, instructionsOf ws = some is := by
  induction ws with
  | nil => exact ⟨[], rfl⟩
  | cons w ws ih =>
    obtain ⟨i, hi⟩ := validate_eq_none.mp h w (by simp)
    rw [validate_cons_legal hi] at h
    obtain ⟨is, his⟩ := ih h
    exact ⟨i :: is, by simp [instructionsOf, hi, his]⟩

/-! ### The release of reset -/

theorem release_of_valid {prog : List Word} (h : validate prog = none) (mode : Mode) :
    release mode prog = { State.reset with mode := mode, prog := prog } := by
  simp [release, h]

theorem release_of_invalid {prog : List Word} {e : ParseError} (h : validate prog = some e) (mode : Mode) :
    release mode prog = { State.reset with mode := mode, prog := prog, err := some e } := by
  simp [release, h, State.takeError]

/-! ### The host's hand-over of text -/

theorem loadText_of_program {ls : List Line} {prog : List Word} (h : assembleText ls = .program prog) (s : State) :
    s.loadText ls = { s with prog := prog, err := none } := by
  simp [State.loadText, h]

theorem loadText_of_refused {ls : List Line} {e : ParseError} (h : assembleText ls = .refusedWith e) (s : State) :
    s.loadText ls = { s with prog := [], err := some e } := by
  simp [State.loadText, h, State.takeError]

/-! ### Instructions, streaming and several steps -/

/-- What no instruction changes, and how an instruction moves `IP`. -/
theorem exec_engine_fields {i : Instr} {s t : State} (h : exec i s = .next t) : t.es = s.es ∧ t.ip = s.ip + 1 ∧ t.prog = s.prog ∧ t.mode = s.mode ∧ t.err = s.err ∧ t.rst = s.rst ∧ t.result = s.result ∧ (s.mValid = true → t.mValid = true) := by
  rcases exec_next_cases h with ⟨px, p1, rfl, -, rfl⟩ | ⟨a, v, rfl, -, rfl⟩
  · simp
  · simp [State.written]

/-- In a state that meets the invariant every well-formed instruction completes. -/
theorem exec_completes {s : State} (hi : s.Inv) {i : Instr} (hw : i.wf = true) : ∃ t, exec i s = .next t := by
  cases i with
  | setmask px p1 => exact ⟨_, execSetmask_of_disjoint hw s⟩
  | write a v => exact ⟨_, execWrite_of_no_overlap (overlapInUse_eq_false fun h => (hi.maskConsistent h).1) a v⟩

/-- Streaming the cells is a left fold over what the generator emits. -/
theorem streamCells_eq_foldl (v : Value) (calls : Nat) (g : Generator) (m : Memory) :
   streamCells calls v g m = (Generator.emitted calls g).foldl (fun acc a => Memory.write a v acc) m := by
  induction calls generalizing g m with
  | zero => rfl
  | succ n ih =>
    simp only [streamCells, Generator.emitted]
    cases hn : g.next with
    | none => rfl
    | some p => simp [ih]

/-- The first of some steps. -/
theorem after_succ (k : Nat) {s t : State} (h : step s = .next t) : after (k + 1) s = after k t := by simp [after, h]

/-- Steps in a row, in two parts. -/
theorem after_add (j k : Nat) (s : State) : after (j + k) s = match after j s with | .next t => after k t | .fault f => .fault f | .refused r => .refused r := by
  induction j generalizing s with
  | zero => simp [after]
  | succ j ih =>
    rw [Nat.succ_add]; simp only [after]
    cases step s <;> simp [ih]

/-- The first instruction of a legal program store, and the rest. -/
theorem instructionsOf_cons {w : Word} {ws : List Word} {is : List Instr} (h : instructionsOf (w :: ws) = some is) : ∃ i is', decode w = .legal i ∧ instructionsOf ws = some is' ∧ is = i :: is' := by
  simp only [instructionsOf] at h
  split at h
  · rename_i i is' h1 h2; cases h; exact ⟨i, is', h1, h2, rfl⟩
  · cases h

/-- A store whose words are all legal has as many instructions as words, and validates. -/
theorem instructionsOf_length {ws : List Word} {is : List Instr} (h : instructionsOf ws = some is) : is.length = ws.length ∧ validate ws = none := by
  induction ws generalizing is with
  | nil => cases h; simp
  | cons w ws ih =>
    obtain ⟨i, is', h1, h2, rfl⟩ := instructionsOf_cons h
    have := ih h2
    simp [this, validate_cons_legal h1]

end Sys2Proof.Machine
end

