-- ==== Sys2Proof/Laws/PerInstr.lean ====
section
/-! SUPPORT. Statements about every instruction as syntax, one lemma for each constructor of `Instr`. -/

namespace Sys2Proof.Laws

/-- The `op` of an instruction (30_encoding.md rule R71). -/
def opOf : Instr → BitVec 4
  | .setmask _ _ => opSetmask
  | .write _ _ => opWrite

/-- An encoded instruction carries its own `op` (30_encoding.md rule R71). -/
def OpOfEncoding.Statement (i : Instr) : Prop := opField (encode i) = opOf i

theorem OpOfEncoding.setmask (px p1 : Bitmap) : OpOfEncoding.Statement (.setmask px p1) :=
  opField_encode_setmask px p1

theorem OpOfEncoding.write (addr : Addr) (value : Value) : OpOfEncoding.Statement (.write addr value) :=
  opField_encode_write addr value

end Sys2Proof.Laws
end

