-- ==== Sys2Proof/Laws/Text.lean ====
section
/-! SUPPORT. The text form's parts: prefixes, the separator, the symbols and the digits of a text. -/

namespace Sys2Proof.Machine

theorem stripPrefix_eq_some {pre l r : Line} : stripPrefix pre l = some r ↔ l = pre ++ r := by
  induction pre generalizing l with
  | nil => simp [stripPrefix]
  | cons c pre ih =>
    cases l with
    | nil => simp [stripPrefix]
    | cons d l =>
      by_cases hcd : c = d
      · simp [stripPrefix, hcd, ih]
      · simp [stripPrefix, hcd, Ne.symm hcd]

theorem stripPrefix_append (pre r : Line) : stripPrefix pre (pre ++ r) = some r := stripPrefix_eq_some.mpr rfl

theorem stripPrefix_eq_none {pre l : Line} : stripPrefix pre l = none ↔ ∀ r, l ≠ pre ++ r := by
  rw [Option.eq_none_iff_forall_ne_some]
  simp only [ne_eq, stripPrefix_eq_some]

/-- What the split gives back is the text it was given. -/
theorem splitAtSeparator_sound {l a v : Line} (h : splitAtSeparator l = some (a, v)) : l = a ++ memSeparator ++ v := by
  induction l generalizing a with
  | nil => cases h
  | cons c l ih =>
    simp only [splitAtSeparator] at h
    split at h
    · rename_i rest hrest
      cases h
      simpa using stripPrefix_eq_some.mp hrest
    · split at h
      · rename_i before aft hrec
        cases h
        simp [ih hrec]
      · cases h

/-- The split is at the first occurrence of the separator. -/
theorem splitAtSeparator_first {l a v : Line} (h : splitAtSeparator l = some (a, v)) {a' v' : Line}
    (h' : l = a' ++ memSeparator ++ v') : a.length ≤ a'.length := by
  induction l generalizing a a' with
  | nil => cases h
  | cons c l ih =>
    simp only [splitAtSeparator] at h
    split at h
    · cases h
      simp
    · rename_i hnone
      split at h
      · rename_i before aft hrec
        cases h
        cases a' with
        | nil => exact absurd (by simpa using h') (stripPrefix_eq_none.mp hnone v')
        | cons d a' =>
          simp only [List.cons_append, List.cons.injEq] at h'
          exact Nat.succ_le_succ (ih hrec h'.2)
      · cases h

/-- Where the separator occurs the split finds an occurrence. -/
theorem splitAtSeparator_complete {l a v : Line} (h : l = a ++ memSeparator ++ v) :
    ∃ b w, splitAtSeparator l = some (b, w) := by
  induction l generalizing a with
  | nil => simp [memSeparator] at h
  | cons c l ih =>
    simp only [splitAtSeparator]
    split
    · exact ⟨_, _, rfl⟩
    · rename_i hnone
      cases a with
      | nil => exact absurd (by simpa using h) (stripPrefix_eq_none.mp hnone v)
      | cons d a =>
        simp only [List.cons_append, List.cons.injEq] at h
        obtain ⟨b, w, hbw⟩ := ih h.2
        exact ⟨c :: b, w, by simp [hbw]⟩

/-! ### Symbols -/

theorem symOfChar_charOfSym (x : Sym) : symOfChar (charOfSym x) = some x := by
  cases x <;> decide

theorem symOfChar_eq_some {c : Char} {x : Sym} : symOfChar c = some x ↔ c = charOfSym x := by
  constructor
  · intro h
    unfold symOfChar at h
    split at h
    · cases h; assumption
    · split at h
      · cases h; assumption
      · split at h
        · cases h; assumption
        · cases h
  · rintro rfl
    exact symOfChar_charOfSym x

theorem symsOfText_eq_some {t : Line} {S : List Sym} : symsOfText t = some S ↔ t = S.map charOfSym := by
  induction t generalizing S with
  | nil => simp [symsOfText, eq_comm]
  | cons c t ih =>
    constructor
    · intro h
      simp only [symsOfText] at h
      split at h
      · rename_i x rest hx hrest
        cases h
        simp [symOfChar_eq_some.mp hx, ih.mp hrest]
      · cases h
    · intro h
      cases S with
      | nil => cases h
      | cons x S =>
        simp only [List.map_cons, List.cons.injEq] at h
        simp [symsOfText, symOfChar_eq_some.mpr h.1, ih.mpr h.2]

/-! ### Digits -/

/-- The digits of a text give its number, and a text with another character gives none. -/
theorem digitsFrom_eq (acc : Nat) (t : Line) :
    digitsFrom acc t = if ∀ c ∈ t, c.isDigit = true then some (Nat.ofDigitChars 10 t acc) else none := by
  induction t generalizing acc with
  | nil => simp [digitsFrom, Nat.ofDigitChars]
  | cons c t ih =>
    by_cases hc : c.isDigit = true
    · simp [digitsFrom, digitOfChar, hc, ih, Nat.ofDigitChars_cons]
    · simp [digitsFrom, digitOfChar, hc]

/-- When an integer text is accepted, and as which number. -/
theorem parseInteger_eq_some {bound n : Nat} {t : Line} :
    parseInteger bound t = some n ↔ denotes t n ∧ n ≤ bound := by
  unfold parseInteger denotes
  by_cases ht : t = []
  · simp [ht]
  · by_cases hd : ∀ c ∈ t, c.isDigit = true
    · rw [digitsFrom_eq, if_pos hd, if_neg ht]
      simp only [ht, ne_eq, not_false_eq_true, true_and, Option.ite_none_right_eq_some, Option.some.injEq]
      constructor
      · rintro ⟨hle, rfl⟩
        exact ⟨⟨hd, rfl⟩, hle⟩
      · rintro ⟨⟨-, rfl⟩, hle⟩
        exact ⟨hle, rfl⟩
    · rw [digitsFrom_eq, if_neg hd, if_neg ht]
      simp [hd]

/-- The canonical numeral of a number denotes it. -/
theorem denotes_decimal (n : Nat) : denotes (decimal n) n := by
  refine ⟨Nat.toDigits_ne_nil, fun c hc => ?_, ?_⟩
  · exact Nat.isDigit_of_mem_toDigits (by decide) (by decide) hc
  · exact (Nat.ofDigitChars_toDigits (by decide) (by decide)).symm

/-- A numeral holds no closing bracket, so no separator begins inside it. -/
theorem bracket_not_mem_decimal (n : Nat) : ']' ∉ decimal n := fun h => by
  have := (denotes_decimal n).2.1 _ h
  exact absurd this (by decide)

/-- No line has both shapes. -/
theorem memPrefix_ne_maskPrefix (r p : Line) : memPrefix ++ r ≠ maskPrefix ++ p := by
  intro h
  have := congrArg (fun l => l[1]?) h
  simp [memPrefix, maskPrefix] at this

/-- When a line is of neither shape (30_encoding.md rule R82 (3)). -/
theorem classify_eq_neither {l : Line} :
    classify l = .neither ↔ (∀ p, l ≠ maskPrefix ++ p) ∧ ∀ r, l = memPrefix ++ r → splitAtSeparator r = none := by
  unfold classify
  split
  · rename_i p hp
    exact iff_of_false (by simp) fun h => h.1 p (stripPrefix_eq_some.mp hp)
  · rename_i hm
    simp only [stripPrefix_eq_none.mp hm, ne_eq, not_false_eq_true, implies_true, true_and]
    split
    · rename_i hn
      simp only [true_iff]
      exact fun r hr => absurd hr (stripPrefix_eq_none.mp hn r)
    · rename_i r hr
      have hl := stripPrefix_eq_some.mp hr
      split
      · rename_i a v hs
        refine iff_of_false (by simp) fun h => ?_
        rw [h r hl] at hs
        cases hs
      · rename_i hs
        simp only [true_iff]
        intro r' hr'
        rw [← List.append_cancel_left (hl.symm.trans hr')]
        exact hs

/-- A line that begins with the `mask` prefix is a `mask` line. -/
theorem classify_mask (p : Line) : classify (maskPrefix ++ p) = .maskLine p := by
  simp [classify, stripPrefix_append]

/-- A text over the alphabet is the text of its symbols. -/
theorem chars_of_symbols (t : Line) : (∀ c ∈ t, c = '0' ∨ c = '1' ∨ c = 'X') ↔ ∃ S : List Sys2Proof.Sym, t = S.map charOfSym := by
  constructor
  · intro h
    induction t with
    | nil => exact ⟨[], rfl⟩
    | cons c t ih =>
      obtain ⟨S, rfl⟩ := ih fun d hd => h d (by simp [hd])
      rcases h c (by simp) with rfl | rfl | rfl
      · exact ⟨.zero :: S, rfl⟩
      · exact ⟨.one :: S, rfl⟩
      · exact ⟨.floating :: S, rfl⟩
  · rintro ⟨S, rfl⟩ c hc
    obtain ⟨x, -, rfl⟩ := List.mem_map.mp hc
    cases x <;> simp [charOfSym]

/-- A decimal digit is the character of its value. -/
theorem digitChar_of_isDigit {c : Char} (h : c.isDigit = true) : c.toNat - '0'.toNat < 10 ∧ Nat.digitChar (c.toNat - '0'.toNat) = c := by
  have h48 : 48 ≤ c.toNat ∧ c.toNat ≤ 57 := by
    simp only [Char.isDigit, ge_iff_le, Bool.and_eq_true, decide_eq_true_eq] at h
    exact ⟨UInt32.le_iff_toNat_le.mp h.1, UInt32.le_iff_toNat_le.mp h.2⟩
  have hc : c = Char.ofNat c.toNat := (Char.ofNat_toNat c).symm
  generalize c.toNat = n at *
  obtain ⟨h1, h2⟩ := h48
  have h0 : '0'.toNat = 48 := rfl
  rw [h0, hc]
  interval_cases n <;> decide

/-- Writing in decimal the number that digits after a positive number denote. -/
theorem toDigits_ofDigitChars (t : Line) (hd : ∀ c ∈ t, c.isDigit = true) (n : Nat) (hn : 0 < n) : Nat.toDigits 10 (Nat.ofDigitChars 10 t n) = Nat.toDigits 10 n ++ t := by
  induction t generalizing n with
  | nil => simp [Nat.ofDigitChars]
  | cons c t ih =>
    obtain ⟨h1, h2⟩ := digitChar_of_isDigit (hd c (by simp))
    rw [Nat.ofDigitChars_cons, ih (fun d h => hd d (by simp [h])) _ (by omega), ← Nat.toDigits_append_toDigits (by decide) hn h1,
      Nat.toDigits_of_lt_base h1, h2]
    simp

/-- The canonical numeral of a text's number is the text without its leading zeros. -/
theorem decimal_ofDigitChars (t : Line) (ht : t ≠ []) (hd : ∀ c ∈ t, c.isDigit = true) : decimal (Nat.ofDigitChars 10 t 0) = withoutLeadingZeros t := by
  induction t with
  | nil => exact absurd rfl ht
  | cons c t ih =>
    obtain ⟨h1, h2⟩ := digitChar_of_isDigit (hd c (by simp))
    cases t with
    | nil =>
      simp only [decimal, Nat.ofDigitChars_cons, Nat.ofDigitChars_nil, withoutLeadingZeros]
      rw [Nat.mul_zero, Nat.zero_add, Nat.toDigits_of_lt_base h1, h2]
    | cons d t =>
      simp only [withoutLeadingZeros]
      split
      · rename_i hc
        subst hc
        exact ih (by simp) (fun x hx => hd x (by simp [hx]))
      · rename_i hc
        have hne : 0 < c.toNat - '0'.toNat := by
          rcases Nat.eq_zero_or_pos (c.toNat - '0'.toNat) with h | h
          · rw [h] at h2; exact absurd h2.symm hc
          · exact h
        rw [decimal, Nat.ofDigitChars_cons, Nat.mul_zero, Nat.zero_add, toDigits_ofDigitChars _ (fun x hx => hd x (by simp at hx ⊢; tauto)) _ hne, Nat.toDigits_of_lt_base h1, h2]
        rfl

end Sys2Proof.Machine
end

