-- ==== Sys2Proof/Tests/Slice0.lean ====
section
/-! SUPPORT. Tests on words and vectors written out from spec/95_test_vectors.md and spec/30_encoding.md, and for every
statement with hypotheses a concrete state and operands that meet them together. No expected value was taken from the
model. -/

namespace Sys2Proof.Tests

open Sys2Proof.Machine

/-! ### Helpers -/

/-- The next state of an outcome, where it is one. -/
def nextOf : Host.Outcome State Fault Refusal → Option State
  | .next t => some t
  | .fault _ => none
  | .refused _ => none

/-- A running machine with a program store, before its first instruction. -/
def runningWith (mode : Mode) (prog : List Word) : State := { State.reset with es := .running, mode, prog }

/-- A running machine whose current descriptor is that of a pattern's planes. -/
def maskedBy (mode : Mode) (px p1 : Bitmap) : State :=
  { runningWith mode [] with mValid := true, mOnes := p1, mZeros := p1 ||| px, mFloat := px }

/-- Pattern A of the table in 95_test_vectors.md: 34 'X', '1' at bit 6, '0' at bit 1. -/
def textA : Line := "XXXXXXXXXXXXXXXXXXXXXXXXXXXXX1XXXX0X".toList

/-- Pattern alt of the same table. -/
def textAlt : Line := "01X01X01X01X01X01X01X01X01X01X01X01X".toList

/-- The symbols of pattern alt. -/
def symsAlt : List Sym := (List.replicate 12 [Sym.zero, .one, .floating]).flatten

/-- `mem[8] = 11` as a word (vector T1). -/
def word811 : Word := 0x2000000008000000000000000B#104

/-- Pattern A as a word. -/
def wordA : Word := 0x10000000FFFFFFFBD000000040#104

/-- Pattern B as a word. -/
def wordB : Word := 0x10000000000000021000000012#104

/-- A machine in the middle of a run in `MODE` = 1: pattern B is in force and a cell is listed. -/
def midRun : State :=
  { runningWith .addressFloating [wordB, word811] with
    mValid := true, mOnes := 0x12, mZeros := 0x33, mFloat := 0x21, ip := 1, mem := [(27, 100)] }

/-- A halted machine whose two cells sum to 165 (the variant C-drop of scenario C). -/
def haltedAt165 : State :=
  { State.reset with es := .halted, result := 165, mem := [(7, 101), (8, 64)] }

/-! ### Decoding, written out bit by bit from 30_encoding.md R71 to R73 -/

/-- `op` 0001, 28 zeros, the X plane of pattern alt, its ones plane. -/
theorem test_decode_setmask_bits :
    decode 0b00010000000000000000000000000000001001001001001001001001001001001001010010010010010010010010010010010010#104 =
      .legal (.setmask 0x249249249 0x492492492) := by decide

/-- `op` 0010, address 42 in 36 bits, value 100 in 64 bits (vector X13). -/
theorem test_decode_write_bits :
    decode 0b00100000000000000000000000000000001010100000000000000000000000000000000000000000000000000000000001100100#104 =
      .legal (.write 42 100) := by decide

/-- Vectors X2, X3 and X5: an unused `op`, and a reserved bit. -/
theorem test_decode_refuses_unused_codes :
    decode 0xFFFFFFFFFFFFFFFFFFFFFFFFFF#104 = .illegal .malformedInstruction ∧
    decode 0x30000000000000000000000005#104 = .illegal .malformedInstruction ∧
    decode 0x18000000000000000000000000#104 = .illegal .malformedInstruction := by decide

/-- The words of patterns A and B encode from their planes (95_test_vectors.md, pattern table). -/
theorem test_encode_setmask : encode (.setmask 0xFFFFFFFBD 0x40) = wordA ∧ encode (.setmask 0x21 0x12) = wordB := by decide

theorem test_encode_write : encode (.write 8 11) = word811 := by decide

/-- The well-formedness check refuses planes that share a bit and accepts planes that do not. -/
theorem test_wf_refuses_overlapping_planes :
    (Instr.setmask 0x800000000 0x800000000).wf = false ∧ (Instr.setmask 1 1).wf = false ∧
      (Instr.setmask 0x800000001 0x7FFFFFFFE).wf = true := by decide

/-- 20_memory.md R53: the bytes of the word of pattern A. -/
theorem test_bytes_of_word :
    bytesOfWord wordA = [0x10, 0x00, 0x00, 0x00, 0xFF, 0xFF, 0xFF, 0xFB, 0xD0, 0x00, 0x00, 0x00, 0x40] := by decide

theorem test_table_word_setmask :
    decodeTableWord 104 0x10000000000000021000000012 = some (.setmask 0x21 0x12) := by decide

theorem test_table_word_write : decodeTableWord 104 0x2000000008000000000000000B = some (.write 8 11) := by decide

/-! ### The instructions -/

/-- 40_mask_parser_setmask.md R107 on pattern alt, as the first step after reset. -/
theorem test_setmask_first_after_reset :
    (nextOf (step (State.reset.withFetchWord 104 0x10000000249249249492492492))).map
      (fun t => (t.mValid, t.mOnes, t.mZeros, t.mFloat, t.ip)) =
      some (true, 0x492492492, 0x6DB6DB6DB, 0x249249249, 1) := by decide

/-- 43_engine_write.md R165 before any `SETMASK`, as the first step after reset (vector X13). -/
theorem test_write_first_after_reset :
    (nextOf (step (State.reset.withFetchWord 104 0x200000002A0000000000000064))).map (fun t => (t.mem, t.ip)) =
      some ([(42, 100)], 1) := by decide

/-- Scenario A: 11 under pattern A is stored as 73. -/
theorem test_write_scenario_a :
    (nextOf (exec (.write 8 11) (maskedBy .valueMasking 0xFFFFFFFBD 0x40))).map (fun t => t.mem) = some [(8, 73)] := by decide

/-- Scenario B: `mem[42] = 100` under pattern B fills 26, 27, 58 and 59. -/
theorem test_write_scenario_b :
    (nextOf (exec (.write 42 100) (maskedBy .addressFloating 0x21 0x12))).map (fun t => t.mem) =
      some [(26, 100), (27, 100), (58, 100), (59, 100)] := by decide

/-! ### The units -/

/-- Vectors V9, V12, V13 and V14 of `apply_value`. -/
theorem test_apply_value :
    applyValue .valueMasking (effectiveDescriptor (maskedBy .valueMasking 0x249249249 0x492492492)) 46118400018 = 28358587538 ∧
    applyValue .valueMasking (effectiveDescriptor (maskedBy .valueMasking 0x21 0x12)) 1099511628031 = 51 ∧
    applyValue .valueMasking (effectiveDescriptor State.reset) 18446744073709551615 = 18446744073709551615 ∧
    applyValue .valueMasking (effectiveDescriptor State.reset) 68719476741 = 68719476741 := by decide

/-- Vectors E4, E7 and E11 of `apply_addresses`. -/
theorem test_apply_addresses :
    applyAddresses .addressFloating (effectiveDescriptor (maskedBy .addressFloating 0xB 0)) 26 =
      [16, 17, 18, 19, 24, 25, 26, 27] ∧
    applyAddresses .addressFloating (effectiveDescriptor (maskedBy .addressFloating 0x800000000 0)) 5 = [5, 34359738373] ∧
    applyAddresses .addressFloating (effectiveDescriptor State.reset) 42 = [42] := by decide

/-- Vectors E10' and E12 of the enumerator. -/
theorem test_enumerate :
    enumerate 63 0x2A = [21, 23, 29, 31, 53, 55, 61, 63] ∧
    enumerate 6 0x800000001 = [6, 7, 34359738374, 34359738375] := by decide

/-- The streaming trace of E1: four addresses, then the end. -/
theorem test_generator_trace : Generator.emitted 10 (Generator.start 26 0x21) = [26, 27, 58, 59] := by decide

/-! ### The engine, validation and text -/

/-- The variant C-drop of scenario C: the cells 101 and 64 sum to 165. -/
theorem test_halt_sums :
    (nextOf (step { runningWith .valueMasking [] with mem := [(7, 101), (8, 64)] })).map (fun t => (t.result, t.es)) =
      some (165, .halted) := by decide

/-- 95_test_vectors.md section 2.2: the lowest index decides. -/
theorem test_validate :
    validate [0x20000000000000000000000000, 0x10000000000000001000000001, 0] = some .malformedMask ∧
    validate [0x30000000000000000000000005, 0x10000000000000001000000001] = some .malformedInstruction ∧
    validate [] = none := by decide

/-- Vectors T1, T2, T7, T11, T21, T24 and T25. -/
theorem test_assemble_lines :
    assembleLine "mem[8] = 11".toList = .word word811 ∧
    assembleLine "mem[008] = 0011".toList = .word word811 ∧
    assembleLine (maskPrefix ++ List.replicate 37 'X') = .malformed .malformedMask ∧
    assembleLine ("mask= ".toList ++ List.replicate 36 'X') = .malformed .malformedInstruction ∧
    assembleLine "mem[68719476736] = 1".toList = .malformed .malformedInteger ∧
    assembleLine "mem[8] = 11 ".toList = .malformed .malformedInteger ∧
    assembleLine "mem[8] = 1] = 2".toList = .malformed .malformedInteger := by decide

set_option maxRecDepth 20000 in
/-- Vector T5, and pattern A in text. -/
theorem test_assemble_masks :
    assembleLine "mask = 000000000000000000000000000000X1001X".toList = .word wordB ∧
    assembleLine (maskPrefix ++ textA) = .word wordA ∧ disassembleWord wordA = some (maskPrefix ++ textA) := by decide

/-- 10_state.md R36. -/
theorem test_reset :
    State.reset.es = .ready ∧ State.reset.ip = 0 ∧ State.reset.mValid = false ∧ State.reset.mem = [] ∧
      State.reset.err = none := by decide

/-! ### Witnesses: each statement's hypotheses hold together -/

theorem test_witness_decode_of_encode :
    (Instr.setmask 0x249249249 0x492492492).wf = true ∧ (Instr.write 0xFFFFFFFFF 0xFFFFFFFFFFFFFFFF).wf = true := by decide

theorem test_witness_legal_word : decode wordA = .legal (.setmask 0xFFFFFFFBD 0x40) := by decide

set_option maxRecDepth 20000 in
/-- The parser accepts pattern alt; positions 0 and 35 are the ends of its range. For the three statements on its output. -/
theorem test_witness_parser_output :
    maskParser symsAlt = some ⟨0x492492492, 0x6DB6DB6DB, 0x249249249⟩ ∧
      symsAlt[35 - 0]? = some .floating ∧ symsAlt[35 - 35]? = some .zero ∧ symsAlt[35 - 34]? = some .one := by decide

theorem test_witness_three_wires : (0x249249249#36 &&& 0x492492492#36 = 0) ∧ (0x800000000#36 &&& 0x800000000#36 ≠ 0) := by
  decide

/-- Disjoint planes, and a running machine that is about to execute them. -/
theorem test_witness_setmask_writes :
    (0x21#36 &&& 0x12#36 = 0 ∧ midRun.rst = false ∧ midRun.err = none ∧ midRun.es = .running ∧ midRun.prog[0]? = some wordB ∧
      decode wordB = .legal (.setmask 0x21 0x12)) ∧ ∃ t, step { midRun with ip := 0 } = .next t := ⟨by decide, _, rfl⟩

theorem test_witness_setmask_registers_the_parsed :
    maskParser symsAlt = some ⟨0x492492492, 0x6DB6DB6DB, 0x249249249⟩ := by decide

theorem test_witness_setmask_frame : ∃ t, exec (.setmask 0x21 0x12) midRun = .next t := ⟨_, rfl⟩

theorem test_witness_setmask_stops :
    0x800000000#36 &&& 0xFFFFFFFFF#36 ≠ 0 ∧ decode wordB = .legal (.setmask 0x21 0x12) := by decide

theorem test_witness_value_masking :
    0x249249249#36 &&& 0x492492492#36 = 0 ∧ (maskedBy .valueMasking 0x249249249 0x492492492).mValid = true ∧
      (maskedBy .valueMasking 0x249249249 0x492492492).mOnes = 0x492492492 ∧
      (maskedBy .valueMasking 0x249249249 0x492492492).mZeros = 0x492492492#36 ||| 0x249249249#36 := by decide

/-- The mask registers of a run, and a member of an address set that is not its base. -/
theorem test_witness_projection :
    midRun.mValid = true ∧ midRun.mZeros = midRun.mOnes ||| midRun.mFloat ∧
      overlapInUse .addressFloating (effectiveDescriptor midRun) = false ∧
      59 ∈ applyAddresses .addressFloating (effectiveDescriptor midRun) 42 := by decide

/-- A state of a run, an address in the set and the address above it, which is not. -/
theorem test_witness_set_form :
    midRun.mValid = true ∧ midRun.mOnes &&& midRun.mFloat = 0 ∧
      59 ∈ applyAddresses .addressFloating (effectiveDescriptor midRun) 42 ∧
      60 ∉ applyAddresses .addressFloating (effectiveDescriptor midRun) 42 := by decide

theorem test_witness_default_descriptor : State.reset.mValid = false := by decide

theorem test_witness_canonical_base :
    0x21#36 &&& 0x12#36 = 0 ∧ midRun.mValid = true ∧ midRun.mOnes = 0x12 ∧ midRun.mFloat = 0x21 ∧
      State.reset.mValid = false := by decide

/-- The counter, the index and the positions at both ends of their ranges. -/
theorem test_witness_scatter :
    3 < 2 ^ popcount 0x800000001#36 ∧ (positions 0x800000001#36)[0]? = some 0 ∧ (positions 0x800000001#36)[1]? = some 35 ∧
      (0x800000001#36).getLsbD 34 = false := by decide

theorem test_witness_generator :
    (Generator.start 26 0x21).cnt < 2 ^ popcount (Generator.start 26 0x21).fmap ∧
      ((Generator.start 26 0x21).next).map (fun r => r.1) = some 26 := by decide

/-- A canonical memory that lists the lowest and the highest address. -/
theorem test_witness_cell : Memory.wf [(0, 5), (68719476735, 7)] := by decide

theorem test_witness_read_alike :
    Memory.wf (Memory.write 3 0 (Memory.write 3 9 [])) ∧ ∀ a, Memory.read (Memory.write 3 0 (Memory.write 3 9 [])) a =
      Memory.read [] a := ⟨by decide, fun _ => rfl⟩

theorem test_witness_order :
    Memory.wf [(27, 100)] ∧ ∀ a : Addr, a ∈ [26#36, 27, 26] ↔ a ∈ [27#36, 26] :=
  ⟨by decide, fun a => by simp only [List.mem_cons, List.not_mem_nil, or_false]; tauto⟩

theorem test_witness_write_stores :
    (Memory.wf midRun.mem ∧ midRun.mode = .addressFloating ∧ midRun.mValid = true ∧ midRun.mOnes &&& midRun.mFloat = 0 ∧
      midRun.rst = false ∧ midRun.err = none ∧ midRun.es = .running ∧ midRun.prog[midRun.ip]? = some word811 ∧
      decode word811 = .legal (.write 8 11)) ∧ ∃ t, step midRun = .next t := ⟨by decide, _, rfl⟩

theorem test_witness_write_value_mode :
    (maskedBy .valueMasking 0xFFFFFFFBD 0x40).mode = .valueMasking ∧ Memory.wf (maskedBy .valueMasking 0xFFFFFFFBD 0x40).mem ∧
      (maskedBy .valueMasking 0xFFFFFFFBD 0x40).mValid = true := by decide

theorem test_witness_write_address_mode :
    midRun.mode = .addressFloating ∧ Memory.wf midRun.mem ∧ (midRun.mValid = true → midRun.mOnes &&& midRun.mFloat = 0) := by
  decide

/-- `WRITE` runs in the middle of a run, and 28 is no address it stores to. -/
theorem test_witness_write_frame :
    (∃ t, exec (.write 42 1) midRun = .next t) ∧
      28 ∉ applyAddresses midRun.mode (effectiveDescriptor midRun) 42 := ⟨⟨_, rfl⟩, by decide⟩

theorem test_witness_write_stops :
    (maskedBy .addressFloating 1 1).mode = .addressFloating ∧ (maskedBy .addressFloating 1 1).mValid = true ∧
      (maskedBy .addressFloating 1 1).mOnes &&& (maskedBy .addressFloating 1 1).mFloat ≠ 0 := by decide

theorem test_witness_streaming :
    midRun.mode = .addressFloating ∧ Memory.wf midRun.mem ∧ midRun.mOnes &&& midRun.mFloat = 0 := by decide

theorem test_witness_one_fill :
    (maskedBy .addressFloating 0xFFFFFFFFF 0).mode = .addressFloating ∧ (maskedBy .addressFloating 0xFFFFFFFFF 0).mem = [] ∧
      (maskedBy .addressFloating 0xFFFFFFFFF 0).mOnes &&& (maskedBy .addressFloating 0xFFFFFFFFF 0).mFloat = 0 := by decide

theorem test_witness_step_runs :
    midRun.rst = false ∧ midRun.err = none ∧ midRun.es = .running ∧ midRun.prog[midRun.ip]? = some word811 ∧
      decode word811 = .legal (.write 8 11) := by decide

theorem test_witness_start_step : State.reset.rst = false ∧ State.reset.err = none ∧ State.reset.es = .ready := by decide

theorem test_witness_halt_step :
    (runningWith .valueMasking []).rst = false ∧ (runningWith .valueMasking []).err = none ∧
      (runningWith .valueMasking []).es = .running ∧ (runningWith .valueMasking []).ip = 0 ∧
      (runningWith .valueMasking []).prog.length = 0 ∧ Memory.wf (runningWith .valueMasking []).mem := by decide

/-- The middle of a run meets the invariant. For the statements that assume it of a running machine. -/
theorem test_midRun_meets_the_invariant : midRun.Inv where
  memCanonical := by decide
  pointerInRange := by decide
  maskConsistent := by decide
  readyIsFresh := by decide
  errorIsReady := by decide
  heldIsReady := by decide
  programValidated := by decide
  haltedIsDone := by decide

/-- So does a halted machine, with the program done. -/
theorem test_halted_meets_the_invariant : haltedAt165.Inv where
  memCanonical := by decide
  pointerInRange := by decide
  maskConsistent := by decide
  readyIsFresh := by decide
  errorIsReady := by decide
  heldIsReady := by decide
  programValidated := by decide
  haltedIsDone := by decide

/-- And a machine whose program was refused, and one that has not started. -/
theorem test_fresh_meets_the_invariant (err : Option ParseError) : State.Inv { State.reset with err } where
  memCanonical := by show Memory.wf []; decide
  pointerInRange := Nat.le_refl _
  maskConsistent := by intro h; cases h
  readyIsFresh := fun _ => ⟨rfl, rfl, rfl⟩
  errorIsReady := fun _ => rfl
  heldIsReady := by intro h; cases h
  programValidated := fun _ _ => rfl
  haltedIsDone := by intro h; cases h

/-- Each row of the table has a state: an error, ready, inside the program, at its end, and halted. -/
theorem test_witness_step_table :
    ({ State.reset with err := some .malformedMask } : State).err = some .malformedMask ∧ State.reset.es = .ready ∧
      midRun.es = .running ∧ midRun.ip < midRun.prog.length ∧
      ({ midRun with ip := 2 } : State).ip = midRun.prog.length ∧ haltedAt165.es = .halted := by decide

theorem test_at_the_end_meets_the_invariant : State.Inv { midRun with ip := 2 } where
  memCanonical := by decide
  pointerInRange := by decide
  maskConsistent := by decide
  readyIsFresh := by decide
  errorIsReady := by decide
  heldIsReady := by decide
  programValidated := by decide
  haltedIsDone := by decide

/-- A machine held in reset meets it too. -/
theorem test_held_meets_the_invariant : (State.underReset midRun).Inv where
  memCanonical := by show Memory.wf []; decide
  pointerInRange := Nat.zero_le _
  maskConsistent := by intro h; cases h
  readyIsFresh := fun _ => ⟨rfl, rfl, rfl⟩
  errorIsReady := fun _ => rfl
  heldIsReady := fun _ => rfl
  programValidated := by intro h; cases h
  haltedIsDone := by intro h; cases h

/-- Each way out has a state: a step, an error, the end of a run, and a machine held in reset. -/
theorem test_witness_no_step_fails :
    (midRun.Inv ∧ ∃ t, step midRun = .next t) ∧
    ((State.Inv { State.reset with err := some .malformedMask }) ∧
      step { State.reset with err := some .malformedMask } = .fault (.terminalError .malformedMask)) ∧
    (haltedAt165.Inv ∧ step haltedAt165 = .fault .runOver) ∧
    ((State.underReset midRun).Inv ∧ step (State.underReset midRun) = .fault .heldInReset) :=
  ⟨⟨test_midRun_meets_the_invariant, _, rfl⟩, ⟨test_fresh_meets_the_invariant _, rfl⟩,
    ⟨test_halted_meets_the_invariant, rfl⟩, test_held_meets_the_invariant, rfl⟩

theorem test_witness_step_keeps_the_invariant : midRun.Inv ∧ ∃ t, step midRun = .next t :=
  ⟨test_midRun_meets_the_invariant, _, rfl⟩

theorem test_witness_step_keeps_the_inputs : ∃ t, step midRun = .next t := ⟨_, rfl⟩

/-- A start step, an instruction and a halt step. -/
theorem test_witness_step_moves :
    (∃ t, step State.reset = .next t) ∧ (∃ t, step midRun = .next t ∧ midRun.mValid = true) ∧
      ∃ t, step { midRun with ip := 2 } = .next t := ⟨⟨_, rfl⟩, ⟨_, rfl, rfl⟩, ⟨_, rfl⟩⟩

theorem test_witness_run_length :
    State.reset.Inv ∧ State.reset.rst = false ∧ State.reset.err = none ∧ State.reset.es = .ready :=
  ⟨test_fresh_meets_the_invariant none, rfl, rfl, rfl⟩

theorem test_witness_last_write :
    midRun.Inv ∧ midRun.rst = false ∧ midRun.err = none ∧ midRun.es = .running ∧
      instructionsOf (midRun.prog.drop midRun.ip) = some [.write 8 11] :=
  ⟨test_midRun_meets_the_invariant, by decide⟩

theorem test_witness_host_reads :
    instructionsOf [wordB, word811] = some [.setmask 0x21 0x12, .write 8 11] := by decide

/-- Two states that differ in every register no rule reads before it is written. -/
theorem test_witness_unread_registers :
    SameToARun State.reset { State.reset with mOnes := 1, mZeros := 2, mFloat := 3, result := 4 } where
  rst := rfl
  es := rfl
  ip := rfl
  mode := rfl
  mValid := rfl
  err := rfl
  mem := rfl
  prog := rfl
  ones := by intro h; cases h
  zeros := by intro h; cases h
  floating := by intro h; cases h
  result := by intro h; cases h

/-- A program with an illegal word, and a state that holds the one error that only text can cause. -/
theorem test_witness_malformed_program :
    validate [word811, 0x10000000000000001000000001] = some .malformedMask ∧
      State.Inv { State.reset with err := some .malformedInteger } := ⟨by decide, test_fresh_meets_the_invariant _⟩

/-- The empty line (vector T12), and a line that begins with `mem[` and has no separator (vector T13). -/
theorem test_witness_neither_shape :
    classify [] = .neither ∧ classify "mem[8]=11".toList = .neither ∧
      validateText ["mem[8]=11".toList] = some .malformedInstruction := by decide

/-- A pattern of the right length over another alphabet, one of a wrong length, and a good one. -/
theorem test_witness_mask_line :
    (List.replicate 36 'x').length = 36 ∧ 'x' ∈ List.replicate 36 'x' ∧ ('x' ≠ '0' ∧ 'x' ≠ '1' ∧ 'x' ≠ 'X') ∧
      (List.replicate 37 'X').length ≠ 36 ∧ textAlt.length = 36 ∧ ∀ c ∈ textAlt, c = '0' ∨ c = '1' ∨ c = 'X' := by
  unfold textAlt
  refine ⟨by decide, by decide, by decide, by decide, by decide, by simp⟩

/-- Numbers at the ends of their ranges, and an address text one past the end. -/
theorem test_witness_mem_line :
    classify "mem[68719476735] = 18446744073709551615".toList =
      .memLine "68719476735".toList "18446744073709551615".toList ∧
    denotes "68719476735".toList 68719476735 ∧ denotes "18446744073709551615".toList 18446744073709551615 ∧
    classify "mem[68719476736] = 1".toList = .memLine "68719476736".toList "1".toList ∧
    denotes "68719476736".toList 68719476736 := by
  have digits : ∀ t : Line, t.all Char.isDigit = true → ∀ c ∈ t, c.isDigit = true := fun _ => List.all_eq_true.mp
  refine ⟨by decide, ⟨by decide, digits _ (by decide), by decide⟩, ⟨by decide, digits _ (by decide), by decide⟩, by decide,
    ⟨by decide, digits _ (by decide), by decide⟩⟩

theorem test_witness_canonical_text : decode word811 = .legal (.write 8 11) := by decide

theorem test_witness_texts_of_one_word :
    assembleLine "mem[008] = 0011".toList = .word word811 ∧ withoutLeadingZeros "008".toList = "8".toList := by decide

/-- A text that assembles and two that are refused. For the two statements about program text. -/
theorem test_witness_text :
    assembleText ["mem[8] = 11".toList] = .program [word811] ∧
      assembleText ["mem[8] = 11".toList, "nop".toList] = .refusedWith .malformedInstruction ∧
      assembleText ["mem[-1] = 1".toList] = .refusedWith .malformedInteger := by decide

theorem test_witness_reset_discards : midRun.rst = false := by decide

theorem test_witness_text_boots : (State.underReset midRun).rst = true := by decide

theorem test_witness_host_moves :
    midRun.rst = false ∧ midRun.Inv ∧ ∃ t, hostAct .assertReset midRun = .next t :=
  ⟨rfl, test_midRun_meets_the_invariant, _, rfl⟩

theorem test_witness_result_is_read : haltedAt165.Inv ∧ haltedAt165.outResult = some 165 :=
  ⟨test_halted_meets_the_invariant, by decide⟩

end Sys2Proof.Tests
end

section
/-! PROOFS. The mask parser and `SETMASK` (40_mask_parser_setmask.md): the bitmaps by the symbols, and the mask registers. -/

namespace Sys2Proof.Machine

/-! ### The parser's bitmaps -/

/-- The bit of `bitmapOf f S` at position p is `f` of the symbol that describes p (00_scope.md rule R8). -/
theorem getLsbD_bitmapOf_of_symbol {f : Sym → Bool} {S : List Sym} (hS : S.length = 36) {p : Nat} (hp : p < 36)
    {x : Sym} (hx : S[35 - p]? = some x) : (bitmapOf f S).getLsbD p = f x := by
  simp [getLsbD_bitmapOf_pattern hS hp, hx]

/-- A bitmap taken to 64 bits has bits 63:36 zero. -/
theorem getLsbD_zext64_of_ge (b : Bitmap) {p : Nat} (hp : 36 ≤ p) : (zext64 b).getLsbD p = false := by
  rw [zext64, BitVec.getLsbD_setWidth, BitVec.getLsbD_of_ge b p hp, Bool.and_false]

/-- Settles O7: a pattern has a symbol at every position, and each of the three kinds decides both bits there. -/
theorem parserSetsOnesAndZerosByTheSymbols : Obligations.ParserSetsOnesAndZerosByTheSymbols := by
  intro S d h
  obtain ⟨hS, rfl⟩ := maskParser_eq_some h
  refine ⟨fun p hp => ?_, fun p hp => ⟨getLsbD_zext64_of_ge _ hp, getLsbD_zext64_of_ge _ hp⟩⟩
  have hx : S[35 - p]? = some S[35 - p] := List.getElem?_eq_getElem (by omega)
  simp only [getLsbD_bitmapOf_of_symbol hS hp hx, hx]
  cases S[35 - p] <;> simp

/-! ### The mask registers -/

/-- `SETMASK` as one record update: the four mask registers and `IP` (40_mask_parser_setmask.md rule R107). -/
theorem exec_setmask_of_disjoint {px p1 : Bitmap} (h : px &&& p1 = 0) (s : State) :
    exec (.setmask px p1) s =
      .next { s with mOnes := p1, mZeros := p1 ||| px, mFloat := px, mValid := true, ip := s.ip + 1 } :=
  execSetmask_of_disjoint (beq_iff_eq.mpr h) s

/-- A word that decodes to a `SETMASK` holds planes that do not overlap (30_encoding.md rule R77 (c)). -/
theorem disjoint_of_decode_setmask {w : Word} {px p1 : Bitmap} (h : decode w = .legal (.setmask px p1)) :
    px &&& p1 = 0 :=
  beq_iff_eq.mp (wf_of_decode h)

/-- What `WRITE` leaves of the mask registers: all four. -/
theorem written_masks (addr : Addr) (value : Value) (s : State) :
    (s.written addr value).mOnes = s.mOnes ∧ (s.written addr value).mZeros = s.mZeros ∧
      (s.written addr value).mFloat = s.mFloat ∧ (s.written addr value).mValid = s.mValid := by
  simp [State.written]

/-- Settles O11: `exec` by the rule of `SETMASK`, the step by the fetch, and the last clause by what a step can do:
start, `WRITE` and halt keep the mask registers. -/
theorem setmaskWritesTheMaskRegisters : Obligations.SetmaskWritesTheMaskRegisters := by
  refine ⟨fun px p1 s h => exec_setmask_of_disjoint h s, fun px p1 w s hr he hs hw hd => ?_, fun s t h => ?_⟩
  · rw [step_running hr he hs hw hd, exec_setmask_of_disjoint (disjoint_of_decode_setmask hd)]
  · obtain ⟨-, -, ⟨-, rfl⟩ | ⟨w, i, hs, hw, hd, hx⟩ | ⟨-, -, -, rfl⟩⟩ := step_next_cases h
    · exact .inl ⟨rfl, rfl, rfl, rfl⟩
    · obtain ⟨px, p1, rfl, -, -⟩ | ⟨addr, value, rfl, -, rfl⟩ := exec_next_cases hx
      · exact .inr ⟨hs, fetch_eq_some hw, w, px, p1, hw, hd⟩
      · exact .inl (written_masks addr value s)
    · exact .inl ⟨rfl, rfl, rfl, rfl⟩

end Sys2Proof.Machine
end

section
/-! PROOFS. The Masking Strategy unit (41_masking_strategy.md): the effective descriptor, the operand that each mode leaves
alone, and the canonical base. -/

namespace Sys2Proof.Machine

/-! ### The effective descriptor -/

theorem effectiveDescriptor_of_valid {s : State} (h : s.mValid = true) :
    effectiveDescriptor s = { ones := zext64 s.mOnes, zeros := zext64 s.mZeros, fmap := s.mFloat } := by
  simp [effectiveDescriptor, h]

theorem effectiveDescriptor_of_not_valid {s : State} (h : s.mValid = false) :
    effectiveDescriptor s = defaultDescriptor := by
  simp [effectiveDescriptor, h]

/-! ### The operand that each mode leaves alone -/

@[simp] theorem applyAddresses_valueMasking (d : Descriptor) (base : Addr) :
    applyAddresses .valueMasking d base = [base] := rfl

@[simp] theorem applyValue_addressFloating (d : Descriptor) (x : Value) : applyValue .addressFloating d x = x := rfl

/-- Settles O17: neither function reads the descriptor in the mode that leaves its operand alone. -/
theorem eachModeLeavesOneOperandAlone : Obligations.EachModeLeavesOneOperandAlone :=
  fun d base x => ⟨applyAddresses_valueMasking d base, applyValue_addressFloating d x⟩

/-! ### The canonical base -/

/-- The canonical base from the mask registers: the cut to 36 bits takes the zero extension of `M_ONES` back. -/
theorem canonicalBase_of_valid {s : State} (h : s.mValid = true) (base : Addr) :
    canonicalBase (effectiveDescriptor s) base = (base ||| s.mOnes) &&& ~~~s.mFloat := by
  simp [canonicalBase, effectiveDescriptor_of_valid h]

@[simp] theorem canonicalBase_defaultDescriptor (base : Addr) : canonicalBase defaultDescriptor base = base :=
  calc canonicalBase defaultDescriptor base
    _ = (base ||| 0#36) &&& BitVec.allOnes 36 := rfl
    _ = base := by rw [BitVec.or_zero, BitVec.and_allOnes]

/-- Clearing a bitmap's positions, bit by bit. -/
theorem getLsbD_clear (a : Addr) (b : Bitmap) {p : Nat} (hp : p < 36) :
    (a &&& ~~~b).getLsbD p = (a.getLsbD p && !b.getLsbD p) := by
  rw [BitVec.getLsbD_and, BitVec.getLsbD_not, decide_eq_true hp, Bool.true_and]

/-- Planes that do not overlap are never both set at a position. -/
theorem getLsbD_ones_of_floating {px p1 : Bitmap} (h : px &&& p1 = 0) {p : Nat} (hx : px.getLsbD p = true) :
    p1.getLsbD p = false := by
  have hb : (px &&& p1).getLsbD p = false := by simp [h]
  simpa [hx] using hb

/-- Forcing the '1' positions and clearing the 'X' positions commute: no position is both. -/
theorem force_clear_comm {px p1 : Bitmap} (h : px &&& p1 = 0) (base : Addr) :
    (base ||| p1) &&& ~~~px = (base &&& ~~~px) ||| p1 := by
  refine BitVec.eq_of_getLsbD_eq fun p hp => ?_
  rw [getLsbD_clear _ _ hp, BitVec.getLsbD_or, BitVec.getLsbD_or, getLsbD_clear _ _ hp]
  cases hx : px.getLsbD p
  · simp
  · simp [getLsbD_ones_of_floating h hx]

/-- Settles O19: the registered descriptor is read from the mask registers, and the two planes decide the symbol and the
bit of every position alike; the default descriptor forces and clears nothing. -/
theorem canonicalBaseFollowsTheSymbols : Obligations.CanonicalBaseFollowsTheSymbols := by
  refine ⟨?_, fun s base hv => ?_⟩
  · rintro px p1 s base h hv rfl rfl
    rw [canonicalBase_of_valid hv]
    refine ⟨rfl, force_clear_comm h base, fun p hp => ?_⟩
    rw [getLsbD_clear _ _ hp, BitVec.getLsbD_or, symbolAt]
    cases hx : s.mFloat.getLsbD p
    · cases s.mOnes.getLsbD p <;> simp
    · simp [getLsbD_ones_of_floating h hx]
  · rw [effectiveDescriptor_of_not_valid hv, canonicalBase_defaultDescriptor]

end Sys2Proof.Machine
end

section
/-! PROOFS. The Address Enumerator (42_address_enumerator.md): the sequence by its index, and the scattered counter as bits
and as a number. -/

namespace Sys2Proof.Machine

/-! ### The sequence -/

@[simp] theorem enumerate_length (base : Addr) (fmap : Bitmap) : (enumerate base fmap).length = 2 ^ popcount fmap := by
  simp [enumerate, popcount_eq_length]

theorem getElem?_enumerate (base : Addr) {fmap : Bitmap} {c : Nat} (hc : c < 2 ^ popcount fmap) :
    (enumerate base fmap)[c]? = some (enumeratedAddress base fmap c) := by
  rw [popcount_eq_length] at hc
  simp [enumerate, hc]

/-! ### The scattered counter -/

/-- Over distinct positions the bit at the j-th position is bit j of the counter: no later position sets it again. -/
theorem getLsbD_scatter_getElem? {F : List Nat} (hF : F.Nodup) (h36 : ∀ p ∈ F, p < 36) {c j p : Nat}
    (hj : F[j]? = some p) : (scatter c F).getLsbD p = c.testBit j := by
  induction F generalizing c j with
  | nil => simp at hj
  | cons q F ih =>
    obtain ⟨hq, hF⟩ := List.nodup_cons.mp hF
    rw [getLsbD_scatter_cons]
    cases j with
    | zero =>
      obtain rfl : q = p := by simpa using hj
      rw [getLsbD_scatter_of_not_mem hq]
      simp [h36 q List.mem_cons_self]
    | succ j =>
      rw [List.getElem?_cons_succ] at hj
      have hpq : p ≠ q := fun e => hq (e ▸ List.mem_of_getElem? hj)
      rw [ih hF (fun r hr => h36 r (List.mem_cons_of_mem _ hr)) hj, Nat.testBit_shiftRight, Nat.add_comm]
      simp [hpq]

/-- Over ascending positions the scattered counter is the sum of its bits, each at the weight of its position. -/
theorem scatter_toNat_eq_sum {F : List Nat} (hF : F.Pairwise (· < ·)) (h36 : ∀ p ∈ F, p < 36) (c : Nat) :
    (scatter c F).toNat = ∑ j ∈ Finset.range F.length, (c.testBit j).toNat * 2 ^ F[j]?.getD 0 := by
  induction F generalizing c with
  | nil => simp [scatter]
  | cons p F ih =>
    have hrest := ih (List.pairwise_cons.mp hF).2 (fun q hq => h36 q (List.mem_cons_of_mem _ hq)) (c >>> 1)
    have hbit : (c.testBit 0).toNat = c % 2 := by rw [Nat.toNat_testBit, pow_zero, Nat.div_one]
    rw [scatter_toNat_cons hF h36, hrest, List.length_cons, Finset.sum_range_succ', hbit, Nat.add_comm]
    simp [Nat.testBit_shiftRight, Nat.add_comm 1]

/-- Settles O23: the address by its index, the scattered counter by induction on the positions, which ascend. -/
theorem enumeratorScattersTheCounter : Obligations.EnumeratorScattersTheCounter := by
  intro base fmap
  have h36 : ∀ p ∈ positions fmap, p < 36 := fun _ hp => positions_lt fmap hp
  refine ⟨enumerate_length base fmap, fun c hc => getElem?_enumerate base hc, fun c j p hj => ?_, fun c p hp => ?_,
    fun c => ?_, enumeratedAddress_toNat base fmap⟩
  · exact getLsbD_scatter_getElem? (positions_nodup fmap) h36 hj
  · exact getLsbD_scatter_of_not_mem (by simp [hp])
  · rw [popcount_eq_length]
    exact scatter_toNat_eq_sum (positions_ascending fmap) h36 c

end Sys2Proof.Machine
end

section
/-! PROOFS. The meaning of `WRITE` (43_engine_write.md): where it runs, and what it makes of memory. -/

namespace Sys2Proof.Machine

/-- No descriptor in use overlaps where, in `MODE` = 1, the mask registers do not: Value Masking uses no floating set. -/
theorem overlapInUse_eq_false_of_addressFloating {s : State}
    (h : s.mode = .addressFloating → s.mValid = true → s.mOnes &&& s.mFloat = 0) :
    overlapInUse s.mode (effectiveDescriptor s) = false := by
  cases hm : s.mode with
  | valueMasking => rfl
  | addressFloating => exact hm ▸ overlapInUse_eq_false (h hm)

/-- `WRITE` as one record update: memory and `IP` (43_engine_write.md rule R165). -/
theorem exec_write_of_disjoint {s : State}
    (h : s.mode = .addressFloating → s.mValid = true → s.mOnes &&& s.mFloat = 0) (addr : Addr) (value : Value) :
    exec (.write addr value) s = .next { s with mem := (s.written addr value).mem, ip := s.ip + 1 } :=
  execWrite_of_no_overlap (overlapInUse_eq_false_of_addressFloating h) addr value

/-- `WRITE` keeps the canonical form of memory. -/
theorem wf_written {s : State} (hm : Memory.wf s.mem) (addr : Addr) (value : Value) :
    Memory.wf (s.written addr value).mem :=
  Memory.wf_writeSet hm _ _

/-- What every address reads as after `WRITE`. -/
theorem read_written {s : State} (hm : Memory.wf s.mem) (addr : Addr) (value : Value) (a : Addr) :
    Memory.read (s.written addr value).mem a =
      if a ∈ applyAddresses s.mode (effectiveDescriptor s) addr then applyValue s.mode (effectiveDescriptor s) value
      else Memory.read s.mem a :=
  Memory.read_writeSet hm _ _ a

/-- Settles O28: `exec` and memory by the rules of `WRITE`, the step by the fetch, and the last clause by what a step can
do: start, `SETMASK` and halt keep memory. -/
theorem writeStoresTheTransformedValue : Obligations.WriteStoresTheTransformedValue := by
  refine ⟨fun addr value s hm h => ?_, fun s t h => ?_⟩
  · have hx := exec_write_of_disjoint h addr value
    refine ⟨_, hx, wf_written hm addr value, read_written hm addr value, fun w hr he hs hw hd => ?_⟩
    rw [step_running hr he hs hw hd, hx]
  · obtain ⟨-, -, ⟨-, rfl⟩ | ⟨w, i, hs, hw, hd, hx⟩ | ⟨-, -, -, rfl⟩⟩ := step_next_cases h
    · exact .inl s.start_mem
    · obtain ⟨px, p1, rfl, -, rfl⟩ | ⟨addr, value, rfl, -, -⟩ := exec_next_cases hx
      · exact .inl rfl
      · exact .inr ⟨hs, fetch_eq_some hw, w, addr, value, hw, hd⟩
    · exact .inl s.halt_mem

end Sys2Proof.Machine
end

section
/-! PROOFS. The binary encoding (30_encoding.md sections 1 to 4): when a word is an instruction, when it is illegal and with
which error, and its 13 bytes. -/

namespace Sys2Proof

/-! ### Legal words -/

theorem planesDisjoint_eq_true {px p1 : Bitmap} : planesDisjoint px p1 = true ↔ px &&& p1 = 0 := beq_iff_eq

/-- Settles O1: the decoder meets its own row's conditions in the fields of the encoded word. -/
theorem decodeOfEncodeGivesTheInstruction : Obligations.DecodeOfEncodeGivesTheInstruction := by
  intro i hi
  cases i with
  | setmask px p1 =>
    exact decode_eq_setmask.mpr ⟨opField_encode_setmask px p1, rsvField_encode_setmask px p1,
      (pxField_encode_setmask px p1).symm, (p1Field_encode_setmask px p1).symm, hi⟩
  | write addr value =>
    exact decode_eq_write.mpr ⟨opField_encode_write addr value, (addrField_encode_write addr value).symm,
      (valueField_encode_write addr value).symm⟩

/-- A legal word agrees in every field with the encoding of its instruction. -/
theorem encode_of_decode {w : Word} {i : Instr} (h : decode w = .legal i) : encode i = w := by
  cases i with
  | setmask px p1 =>
    obtain ⟨hop, hrsv, rfl, rfl, -⟩ := decode_eq_setmask.mp h
    exact word_ext_formatM (by simp [hop]) (by simp [hrsv]) (by simp) (by simp)
  | write addr value =>
    obtain ⟨hop, rfl, rfl⟩ := decode_eq_write.mp h
    exact word_ext_formatW (by simp [hop]) (by simp) (by simp)

/-- Settles O2: a legal word is the encoding of its instruction, field by field. -/
theorem legalWordIsTheEncodingOfItsInstruction : Obligations.LegalWordIsTheEncodingOfItsInstruction :=
  fun _ _ h => ⟨wf_of_decode h, encode_of_decode h⟩

/-- Settles O3: the mask and match of a row say what the decoder tests of the `op` and `rsv` fields. -/
theorem opcodeMapDecidesTheInstruction : Obligations.OpcodeMapDecidesTheInstruction := by
  refine ⟨fun w px p1 => ?_, fun w addr value => ?_⟩
  · rw [decode_eq_setmask, and_maskM_eq, planesDisjoint_eq_true, and_assoc]
    exact Iff.rfl
  · rw [decode_eq_write, and_maskW_eq]
    exact Iff.rfl

/-! ### Illegal words -/

/-- When a word is `MalformedMask` (30_encoding.md rule R77 (c)). -/
theorem decode_eq_malformedMask {w : Word} :
    decode w = .illegal .malformedMask ↔
      opField w = opSetmask ∧ rsvField w = 0 ∧ pxField w &&& p1Field w ≠ 0 := by
  unfold decode
  split
  · rename_i hop
    split
    · rename_i hrsv
      exact iff_of_false (by simp) fun h => hrsv h.2.1
    · rename_i hrsv
      split
      · rename_i hd
        exact iff_of_false (by simp) fun h => h.2.2 (planesDisjoint_eq_true.mp hd)
      · rename_i hd
        exact iff_of_true rfl ⟨hop, not_not.mp hrsv, mt planesDisjoint_eq_true.mpr hd⟩
  · rename_i hop
    split <;> simp [hop]

/-- When a word is `MalformedInstruction` (30_encoding.md rule R77 (a), (b)). -/
theorem decode_eq_malformedInstruction {w : Word} :
    decode w = .illegal .malformedInstruction ↔
      (opField w ≠ opSetmask ∧ opField w ≠ opWrite) ∨ (opField w = opSetmask ∧ rsvField w ≠ 0) := by
  unfold decode
  split
  · rename_i hop
    split
    · rename_i hrsv
      exact iff_of_true rfl (.inr ⟨hop, hrsv⟩)
    · rename_i hrsv
      have : ¬ ((opField w ≠ opSetmask ∧ opField w ≠ opWrite) ∨ (opField w = opSetmask ∧ rsvField w ≠ 0)) :=
        not_or.mpr ⟨fun h => h.1 hop, fun h => hrsv h.2⟩
      split <;> exact iff_of_false (by simp) this
  · rename_i hop
    split <;> simp_all

/-- No word is `MalformedInteger`: the error has no binary cause (60_exceptions.md rule R195). -/
theorem decode_ne_malformedInteger (w : Word) : decode w ≠ .illegal .malformedInteger := by
  unfold decode
  split
  · split
    · simp
    · split <;> simp
  · split <;> simp

/-- Settles O4: each error by the branches of the decoder that answer it. -/
theorem illegalWordsAreRefusedByName : Obligations.IllegalWordsAreRefusedByName :=
  fun w => ⟨decode_eq_malformedInstruction, decode_eq_malformedMask, decode_ne_malformedInteger w⟩

/-- Settles O5: seven fixed words, each decoded. -/
theorem wordsOfTheSpecDecodeAsPrinted : Obligations.WordsOfTheSpecDecodeAsPrinted := by
  unfold Obligations.WordsOfTheSpecDecodeAsPrinted
  decide

/-! ### The 13 bytes of a word -/

@[simp] theorem bytesOfWord_length (w : Word) : (bytesOfWord w).length = 13 := by
  simp [bytesOfWord, Config.wordBytes]

/-- The first n bytes of a word spell the word without the bits below them (20_memory.md rule R53). -/
theorem wordOfBytes_map_range (w : Word) {n : Nat} (hn : n ≤ 13) :
    wordOfBytes ((List.range n).map fun j => w.extractLsb' (96 - 8 * j) 8) = w >>> (104 - 8 * n) := by
  induction n with
  | zero => exact (BitVec.ushiftRight_eq_zero (le_refl 104)).symm
  | succ n ih =>
    have hlow : 104 - 8 * n = 96 - 8 * n + 8 := by omega
    have hprev := ih (by omega)
    rw [hlow] at hprev
    rw [show 104 - 8 * (n + 1) = 96 - 8 * n by omega, ← shift_in_byte w (96 - 8 * n), ← hprev]
    simp [wordOfBytes, List.range_succ]

theorem wordOfBytes_bytesOfWord (w : Word) : wordOfBytes (bytesOfWord w) = w := by
  rw [bytesOfWord, Config.wordBytes, wordOfBytes_map_range w (le_refl 13)]
  exact BitVec.ushiftRight_zero w

theorem decodeBytes_bytesOfWord_append (w : Word) (rest : List (BitVec 8)) :
    decodeBytes (bytesOfWord w ++ rest) = some (decode w, rest) := by
  have hlen : Config.wordBytes = (bytesOfWord w).length := (bytesOfWord_length w).symm
  have hle : Config.wordBytes ≤ (bytesOfWord w ++ rest).length := by rw [hlen, List.length_append]; omega
  rw [decodeBytes, if_pos hle, hlen, List.take_left, List.drop_left, wordOfBytes_bytesOfWord]

/-- Settles O6: the bytes by their index, and the spelled word by shifting in one byte after another. -/
theorem wordLaidOutAsBytesReadsBack : Obligations.WordLaidOutAsBytesReadsBack := by
  refine fun w rest => ⟨bytesOfWord_length w, fun j hj => ?_, wordOfBytes_bytesOfWord w,
    decodeBytes_bytesOfWord_append w rest⟩
  simp [bytesOfWord, Config.wordBytes, hj]

end Sys2Proof
end

section
/-! PROOFS. The mask parser (40_mask_parser_setmask.md section 1): its output as the planes of the pattern, the floating
positions, the count of the symbols, and the pattern that a pair of planes spells. -/

namespace Sys2Proof.Machine

/-! ### The parser's output -/

/-- `zeros` is the union of the two planes: '1' and 'X' are the symbols that set it (40_mask_parser_setmask.md rule R102). -/
theorem bitmapOf_one_or_floating {S : List Sym} (hS : S.length = 36) :
    bitmapOf (fun x => x == .one || x == .floating) S = onesPlane S ||| xPlane S := by
  refine BitVec.eq_of_getLsbD_eq fun p hp => ?_
  have hx : S[35 - p]? = some S[35 - p] := List.getElem?_eq_getElem (by omega)
  rw [BitVec.getLsbD_or, onesPlane, xPlane, getLsbD_bitmapOf_of_symbol hS hp hx, getLsbD_bitmapOf_of_symbol hS hp hx,
    getLsbD_bitmapOf_of_symbol hS hp hx]

/-- What the parser accepts, and its output in terms of the planes (40_mask_parser_setmask.md rules R100, R104). -/
theorem maskParser_eq_some_iff {S : List Sym} {d : MaskDescriptor} :
    maskParser S = some d ↔
      S.length = 36 ∧ d = { ones := onesPlane S, zeros := onesPlane S ||| xPlane S, fmap := xPlane S } := by
  constructor
  · intro h
    obtain ⟨hS, rfl⟩ := maskParser_eq_some h
    exact ⟨hS, by rw [bitmapOf_one_or_floating hS]; rfl⟩
  · rintro ⟨hS, rfl⟩
    rw [← bitmapOf_one_or_floating hS]
    exact if_pos hS

/-- A plane marks its symbol: the X plane where the pattern has 'X', the ones plane where it has '1'. -/
theorem getLsbD_bitmapOf_beq {S : List Sym} (hS : S.length = 36) (x : Sym) {p : Nat} (hp : p < 36) :
    (bitmapOf (fun y => y == x) S).getLsbD p = true ↔ S[35 - p]? = some x := by
  have hy : S[35 - p]? = some S[35 - p] := List.getElem?_eq_getElem (by omega)
  rw [getLsbD_bitmapOf_of_symbol hS hp hy, hy, beq_iff_eq, Option.some_inj]

/-- A plane has as many bits as the pattern has of its symbol. -/
theorem popcount_bitmapOf_beq {S : List Sym} (hS : S.length = 36) (x : Sym) :
    popcount (bitmapOf (fun y => y == x) S) = S.count x :=
  countP_bitmapOf S hS _

/-- Settles O8: the floating list is the list of positions of the X plane. -/
theorem parserListsTheFloatingPositions : Obligations.ParserListsTheFloatingPositions := by
  intro S d h
  obtain ⟨hS, rfl⟩ := maskParser_eq_some_iff.mp h
  refine ⟨fun p hp => ?_, fun p hp => positions_lt _ hp, positions_ascending _, ?_⟩
  · exact (mem_positions _ p).trans (getLsbD_bitmapOf_beq hS .floating hp)
  · rw [← popcount_bitmapOf_beq hS, popcount_eq_length]
    rfl

/-- Every symbol is of one of the three kinds. -/
theorem count_symbols (S : List Sym) : S.count .one + S.count .floating + S.count .zero = S.length := by
  induction S with
  | nil => rfl
  | cons x S ih => cases x <;> simp <;> omega

/-- Settles O9: the planes of a pattern do not overlap, and their bits count the '1' and the 'X' symbols. -/
theorem parserOutputIsConsistent : Obligations.ParserOutputIsConsistent := by
  intro S d h
  obtain ⟨hS, rfl⟩ := maskParser_eq_some_iff.mp h
  refine ⟨?_, rfl, ?_⟩
  · rw [BitVec.and_comm]
    exact planes_of_pattern_disjoint S hS
  · rw [onesPlane, xPlane, popcount_bitmapOf_beq hS, popcount_bitmapOf_beq hS, count_symbols, hS]

/-! ### The pattern that a pair of planes spells -/

/-- Where the pair at a position is a symbol, the X plane tells whether it is 'X' and the ones plane whether it is '1'. -/
theorem symbolAt_eq_some {px p1 : Bitmap} {p : Nat} (h : symbolAt px p1 p ≠ none) :
    (symbolAt px p1 p = some .floating ↔ px.getLsbD p = true) ∧
      (symbolAt px p1 p = some .one ↔ p1.getLsbD p = true) := by
  revert h
  unfold symbolAt
  cases px.getLsbD p <;> cases p1.getLsbD p <;> simp

/-- Planes spell a pattern exactly where they do not overlap (30_encoding.md rule R74). -/
theorem isSome_symbolsOfPlanes {px p1 : Bitmap} : (symbolsOfPlanes px p1).isSome = true ↔ px &&& p1 = 0 := by
  rw [symbolsOfPlanes, symbolsBelow_isSome, ← planesDisjoint_eq_true, planesDisjoint_iff]
  rfl

/-- The planes of the pattern that a pair of planes spells are that pair. -/
theorem planes_of_symbolsOfPlanes {px p1 : Bitmap} {S : List Sym} (h : symbolsOfPlanes px p1 = some S) :
    S.length = 36 ∧ xPlane S = px ∧ onesPlane S = p1 := by
  obtain ⟨hS, hsym⟩ := symbolsBelow_eq_some h
  have hne : ∀ p < 36, symbolAt px p1 p ≠ none := symbolsBelow_isSome.mp (Option.isSome_of_eq_some h)
  refine ⟨hS, BitVec.eq_of_getLsbD_eq fun p hp => ?_, BitVec.eq_of_getLsbD_eq fun p hp => ?_⟩
  · rw [Bool.eq_iff_iff, ← (symbolAt_eq_some (hne p hp)).1, ← hsym p hp]
    exact getLsbD_bitmapOf_beq hS .floating hp
  · rw [Bool.eq_iff_iff, ← (symbolAt_eq_some (hne p hp)).2, ← hsym p hp]
    exact getLsbD_bitmapOf_beq hS .one hp

theorem parsePlanes_of_overlap {px p1 : Bitmap} (h : px &&& p1 ≠ 0) : parsePlanes px p1 = none :=
  if_neg (mt planesDisjoint_eq_true.mp h)

/-- Settles O10: disjoint planes spell a pattern whose planes they are, so its parse is theirs. -/
theorem parserIsThreeWiresOnThePlanes : Obligations.ParserIsThreeWiresOnThePlanes := by
  refine ⟨fun px p1 h => ?_, fun px p1 h => ⟨?_, parsePlanes_of_overlap h⟩⟩
  · obtain ⟨S, hsym⟩ := Option.isSome_iff_exists.mp (isSome_symbolsOfPlanes.mpr h)
    obtain ⟨hS, rfl, rfl⟩ := planes_of_symbolsOfPlanes hsym
    exact ⟨S, hsym, rfl, rfl, maskParser_eq_some_iff.mpr ⟨hS, rfl⟩⟩
  · exact Option.not_isSome_iff_eq_none.mp (mt isSome_symbolsOfPlanes.mp h)

end Sys2Proof.Machine
end

section
/-! PROOFS. `SETMASK` (40_mask_parser_setmask.md section 2): the registered pattern, the frame, and where it stops. -/

namespace Sys2Proof.Machine

/-- Settles O12: the planes of a pattern do not overlap, so `SETMASK` registers what the parser answers. -/
theorem setmaskRegistersTheParsedPattern : Obligations.SetmaskRegistersTheParsedPattern := by
  intro S d s h
  obtain ⟨hS, rfl⟩ := maskParser_eq_some_iff.mp h
  exact ⟨_, exec_setmask_of_disjoint (planes_of_pattern_disjoint S hS) s, rfl, rfl⟩

/-- Settles O13: the only next state of `SETMASK` differs in the mask registers and `IP`. -/
theorem setmaskFrame : Obligations.SetmaskFrame := by
  intro px p1 s t h
  obtain ⟨_, _, -, -, rfl⟩ | ⟨_, _, hi, -⟩ := exec_next_cases h
  · simp
  · cases hi

/-- Settles O14: the parser refuses overlapping planes, and the decoder does before it. -/
theorem setmaskStopsOnOverlappingPlanes : Obligations.SetmaskStopsOnOverlappingPlanes := by
  refine ⟨fun px p1 s h => ?_, fun w px p1 h => disjoint_of_decode_setmask h⟩
  exact execSetmask_of_overlap (Bool.eq_false_iff.mpr (mt planesDisjoint_eq_true.mp h)) s

end Sys2Proof.Machine
end

section
/-! PROOFS. The enumeration as a set and in its order, and the generator that produces it (42_address_enumerator.md). -/

namespace Sys2Proof.Machine

/-! ### The enumeration as a set -/

/-- Addresses that agree off the floating positions, bit by bit. -/
theorem clear_eq_clear_iff {a b : Addr} {fmap : Bitmap} :
    a &&& ~~~fmap = b &&& ~~~fmap ↔ ∀ p < 36, fmap.getLsbD p = false → a.getLsbD p = b.getLsbD p := by
  constructor
  · intro h p hp hf
    have hbit := congrArg (fun c => c.getLsbD p) h
    simpa [getLsbD_clear _ _ hp, hf] using hbit
  · intro h
    refine BitVec.eq_of_getLsbD_eq fun p hp => ?_
    rw [getLsbD_clear _ _ hp, getLsbD_clear _ _ hp]
    cases hf : fmap.getLsbD p
    · rw [h p hp hf]
    · simp

/-- An address that agrees with the base off the floating positions is enumerated at the counter it gathers to. -/
theorem enumeratedAddress_gather {base a : Addr} {fmap : Bitmap} (h : a &&& ~~~fmap = base &&& ~~~fmap) :
    enumeratedAddress base fmap (gather a (positions fmap)) = a := by
  refine BitVec.eq_of_getLsbD_eq fun p hp => ?_
  rw [getLsbD_enumeratedAddress]
  cases hf : fmap.getLsbD p
  · exact (clear_eq_clear_iff.mp h p hp hf).symm
  · simp [getLsbD_scatter_gather, hf]

/-- The set of enumerated addresses (42_address_enumerator.md rules R143, R144). -/
theorem mem_enumerate {base a : Addr} {fmap : Bitmap} :
    a ∈ enumerate base fmap ↔ a &&& ~~~fmap = base &&& ~~~fmap := by
  constructor
  · intro h
    obtain ⟨c, -, rfl⟩ := List.mem_map.mp h
    exact clear_eq_clear_iff.mpr fun p _ hf => by simp [getLsbD_enumeratedAddress, hf]
  · intro h
    exact List.mem_map.mpr ⟨_, List.mem_range.mpr (gather_lt a _), enumeratedAddress_gather h⟩

theorem enumerate_nodup (base : Addr) (fmap : Bitmap) : (enumerate base fmap).Nodup :=
  List.Nodup.map_on (fun _ hc _ hc' h => enumeratedAddress_injective (List.mem_range.mp hc) (List.mem_range.mp hc') h)
    List.nodup_range

/-- Settles O21: the counter values and the addresses that agree with the base are in bijection by scattering. -/
theorem enumeratorIsCompleteAndDistinct : Obligations.EnumeratorIsCompleteAndDistinct :=
  fun base fmap => ⟨enumerate_length base fmap, enumerate_nodup base fmap, fun _ => mem_enumerate⟩

/-! ### The order of the enumeration -/

/-- Scattering over ascending positions keeps the order of counters. Where the upper bits of the counters differ, the
scattered upper parts differ by at least the power of two above the lowest position, which the lowest bit cannot make up. -/
theorem scatter_strictMono {F : List Nat} (hF : F.Pairwise (· < ·)) (h36 : ∀ p ∈ F, p < 36) {c c' : Nat} (hcc : c < c')
    (hc' : c' < 2 ^ F.length) : (scatter c F).toNat < (scatter c' F).toNat := by
  induction F generalizing c c' with
  | nil =>
    rw [List.length_nil, pow_zero] at hc'
    omega
  | cons p F ih =>
    obtain ⟨hp, hF'⟩ := List.pairwise_cons.mp hF
    have hF36 : ∀ q ∈ F, q < 36 := fun q hq => h36 q (List.mem_cons_of_mem _ hq)
    rw [scatter_toNat_cons hF h36, scatter_toNat_cons hF h36]
    have hle : c >>> 1 ≤ c' >>> 1 := by
      rw [Nat.shiftRight_one, Nat.shiftRight_one]
      omega
    obtain hlt | heq := hle.lt_or_eq
    · have hupper : (scatter (c >>> 1) F).toNat < (scatter (c' >>> 1) F).toNat := by
        refine ih hF' hF36 hlt ?_
        rw [List.length_cons, pow_succ] at hc'
        rw [Nat.shiftRight_one]
        omega
      have hdvd : ∀ n, 2 ^ (p + 1) ∣ (scatter n F).toNat := two_pow_dvd_scatter hF' hF36 hp
      obtain ⟨u, hu⟩ := hdvd (c >>> 1)
      obtain ⟨u', hu'⟩ := hdvd (c' >>> 1)
      have hgap : 2 ^ (p + 1) * (u + 1) ≤ 2 ^ (p + 1) * u' :=
        Nat.mul_le_mul_left _ (Nat.lt_of_mul_lt_mul_left (hu ▸ hu' ▸ hupper))
      have hbit : c % 2 * 2 ^ p ≤ 1 * 2 ^ p := Nat.mul_le_mul_right _ (by omega)
      have hpos : 0 < 2 ^ p := Nat.two_pow_pos p
      rw [mul_add, mul_one, pow_succ] at hgap
      rw [hu, hu', pow_succ]
      omega
    · rw [Nat.shiftRight_one, Nat.shiftRight_one] at heq ⊢
      have hbits : c % 2 = 0 ∧ c' % 2 = 1 := by omega
      rw [hbits.1, hbits.2, heq, zero_mul, one_mul]
      exact Nat.add_lt_add_right (Nat.two_pow_pos p) _

/-- Settles O22: an address is the cleared base plus the scattered counter, and scattering keeps the order. -/
theorem enumeratorAscends : Obligations.EnumeratorAscends := by
  intro base fmap
  refine List.pairwise_map.mpr (List.pairwise_lt_range.imp_of_mem fun _ hc' hcc => ?_)
  rw [enumeratedAddress_toNat, enumeratedAddress_toNat]
  exact Nat.add_lt_add_left (scatter_strictMono (positions_ascending fmap) (fun _ => positions_lt fmap) hcc
    (List.mem_range.mp hc')) _

/-! ### The generator -/

/-- A generator that has not ended emits the address at its counter, and ends at the last value of `CNT`. -/
theorem next_of_not_done (base : Addr) (fmap : Bitmap) (c : Nat) :
    Generator.next { base, fmap, cnt := c, done := false } =
      some (enumeratedAddress base fmap c,
        if c = 2 ^ popcount fmap - 1 then { base, fmap, cnt := c, done := true }
        else { base, fmap, cnt := c + 1, done := false }) := by
  simp [Generator.next, popcount_eq_length]

theorem emitted_of_done (calls : Nat) (base : Addr) (fmap : Bitmap) (c : Nat) :
    Generator.emitted calls { base, fmap, cnt := c, done := true } = [] := by
  cases calls <;> simp [Generator.emitted, Generator.next]

/-- From any value of `CNT` in range the generator emits the rest of the sequence, as far as it is called. -/
theorem emitted_of_not_done (base : Addr) (fmap : Bitmap) (calls : Nat) {c : Nat} (hc : c < 2 ^ popcount fmap) :
    Generator.emitted calls { base, fmap, cnt := c, done := false } = ((enumerate base fmap).drop c).take calls := by
  induction calls generalizing c with
  | zero => rfl
  | succ calls ih =>
    have hlen : c < (enumerate base fmap).length := by rwa [enumerate_length]
    have hget : (enumerate base fmap)[c] = enumeratedAddress base fmap c :=
      Option.some_inj.mp ((List.getElem?_eq_getElem hlen).symm.trans (getElem?_enumerate base hc))
    rw [List.drop_eq_getElem_cons hlen, List.take_succ_cons, hget, Generator.emitted, next_of_not_done]
    by_cases hlast : c = 2 ^ popcount fmap - 1
    · have hend : (enumerate base fmap).drop (c + 1) = [] := List.drop_eq_nil_of_le (by rw [enumerate_length]; omega)
      simp only [if_pos hlast, hend, emitted_of_done, List.take_nil]
    · simp only [if_neg hlast, ih (c := c + 1) (by omega)]

/-- What a generator emits from its start (42_address_enumerator.md rule R146). -/
theorem emitted_start (calls : Nat) (base : Addr) (fmap : Bitmap) :
    Generator.emitted calls (Generator.start base fmap) = (enumerate base fmap).take calls :=
  emitted_of_not_done base fmap calls (Nat.two_pow_pos _)

/-- A call keeps the inputs, and `CNT` within its k bits: the last value is tested for before the increment. -/
theorem next_keeps_range {g g' : Generator} {a : Addr} (hg : g.cnt < 2 ^ popcount g.fmap) (h : g.next = some (a, g')) :
    g'.cnt < 2 ^ popcount g'.fmap ∧ g'.fmap = g.fmap ∧ g'.base = g.base := by
  obtain ⟨base, fmap, c, _ | _⟩ := g
  · rw [next_of_not_done, Option.some_inj, Prod.mk.injEq] at h
    obtain ⟨-, rfl⟩ := h
    dsimp only at hg
    split
    · exact ⟨hg, rfl, rfl⟩
    · exact ⟨by dsimp only; omega, rfl, rfl⟩
  · cases h

/-- Settles O24: by induction on the calls, from any value of the counter. -/
theorem generatorEmitsTheSequence : Obligations.GeneratorEmitsTheSequence :=
  ⟨fun base fmap calls => emitted_start calls base fmap, fun _ _ _ hg h => next_keeps_range hg h⟩

end Sys2Proof.Machine
end

section
/-! PROOFS. The Masking Strategy unit (41_masking_strategy.md sections 2 to 4): the masked value bit by bit, the default
descriptor, and the address set. -/

namespace Sys2Proof.Machine

/-! ### apply_value -/

theorem getLsbD_zext64_of_lt (b : Bitmap) {p : Nat} (hp : p < 36) : (zext64 b).getLsbD p = b.getLsbD p := by
  rw [zext64, BitVec.getLsbD_setWidth, decide_eq_true (by omega : p < 64), Bool.true_and]

/-- Value Masking from the mask registers (41_masking_strategy.md rule R123). -/
theorem applyValue_of_valid {s : State} (h : s.mValid = true) (x : Value) :
    applyValue .valueMasking (effectiveDescriptor s) x = (x ||| zext64 s.mOnes) &&& zext64 s.mZeros := by
  rw [effectiveDescriptor_of_valid h]
  rfl

@[simp] theorem applyValue_defaultDescriptor (mode : Mode) (x : Value) : applyValue mode defaultDescriptor x = x := by
  cases mode with
  | valueMasking =>
    calc applyValue .valueMasking defaultDescriptor x
      _ = (x ||| 0#64) &&& BitVec.allOnes 64 := rfl
      _ = x := by rw [BitVec.or_zero, BitVec.and_allOnes]
  | addressFloating => rfl

/-- Settles O15: the two planes decide the symbol and the bit of every position alike; above them `zeros` clears. -/
theorem valueMaskingFollowsTheSymbols : Obligations.ValueMaskingFollowsTheSymbols := by
  rintro px p1 s x h hv rfl hz
  rw [applyValue_of_valid hv, hz]
  refine ⟨fun p hp => ?_, fun p hp => ?_⟩
  · rw [BitVec.getLsbD_and, BitVec.getLsbD_or, getLsbD_zext64_of_lt _ hp, getLsbD_zext64_of_lt _ hp, BitVec.getLsbD_or,
      symbolAt]
    cases hx : px.getLsbD p
    · cases s.mOnes.getLsbD p <;> simp
    · simp [getLsbD_ones_of_floating h hx]
  · rw [BitVec.getLsbD_and, getLsbD_zext64_of_ge _ hp, Bool.and_false]

/-- Forcing and clearing twice is doing it once where no forced bit is cleared. -/
theorem force_mask_idem {ones zeros : Value} (h : ∀ p, ones.getLsbD p = true → zeros.getLsbD p = true) (x : Value) :
    (((x ||| ones) &&& zeros) ||| ones) &&& zeros = (x ||| ones) &&& zeros := by
  refine BitVec.eq_of_getLsbD_eq fun p _ => ?_
  simp only [BitVec.getLsbD_and, BitVec.getLsbD_or]
  cases ho : ones.getLsbD p
  · cases zeros.getLsbD p <;> simp
  · simp [h p ho]

/-- Masking a value is a projection under the mask registers of a run (41_masking_strategy.md rule R128). -/
theorem applyValue_idem {s : State} (h : s.mValid = true → s.mZeros = s.mOnes ||| s.mFloat) (mode : Mode) (x : Value) :
    applyValue mode (effectiveDescriptor s) (applyValue mode (effectiveDescriptor s) x) =
      applyValue mode (effectiveDescriptor s) x := by
  cases mode with
  | addressFloating => rfl
  | valueMasking =>
    cases hv : s.mValid
    · simp [effectiveDescriptor_of_not_valid hv]
    · rw [applyValue_of_valid hv, applyValue_of_valid hv, h hv]
      refine force_mask_idem (fun p hp => ?_) x
      by_cases hlt : p < 36
      · rw [getLsbD_zext64_of_lt _ hlt] at hp ⊢
        simp [hp]
      · simp [getLsbD_zext64_of_ge _ (Nat.le_of_not_lt hlt)] at hp

/-! ### apply_addresses -/

/-- The canonical base has its floating positions clear. -/
theorem canonicalBase_clear (d : Descriptor) (base : Addr) :
    canonicalBase d base &&& ~~~d.fmap = canonicalBase d base := by
  rw [canonicalBase, BitVec.and_assoc, BitVec.and_self]

/-- The set form of an address set (41_masking_strategy.md rule R127). -/
theorem mem_applyAddresses_addressFloating {d : Descriptor} {base a : Addr} :
    a ∈ applyAddresses .addressFloating d base ↔ a &&& ~~~d.fmap = canonicalBase d base := by
  rw [applyAddresses, mem_enumerate, canonicalBase_clear]

theorem mem_applyAddresses_valueMasking {d : Descriptor} {base a : Addr} :
    a ∈ applyAddresses .valueMasking d base ↔ a = base := List.mem_singleton

/-- Settles O20: Value Masking has the one address; the enumeration's set form from the canonical base is the other. -/
theorem addressSetIsTheSetForm : Obligations.AddressSetIsTheSetForm :=
  fun _ _ _ => ⟨mem_applyAddresses_valueMasking, fun _ => mem_applyAddresses_addressFloating⟩

/-- Where no position floats the base is the only address. -/
theorem enumerate_zero (base : Addr) : enumerate base 0#36 = [base] := by
  have hbase : enumeratedAddress base 0#36 0 = base :=
    BitVec.eq_of_getLsbD_eq fun p _ => by simp [getLsbD_enumeratedAddress]
  simp [enumerate, hbase]

/-- Under the default descriptor no position floats. -/
theorem applyAddresses_defaultDescriptor (mode : Mode) (a : Addr) : applyAddresses mode defaultDescriptor a = [a] := by
  cases mode with
  | valueMasking => rfl
  | addressFloating =>
    rw [applyAddresses, canonicalBase_defaultDescriptor]
    exact enumerate_zero a

/-- Settles O18: before any `SETMASK` the effective descriptor is the default one. -/
theorem defaultDescriptorMasksNothing : Obligations.DefaultDescriptorMasksNothing := by
  intro s mode x a hv
  rw [effectiveDescriptor_of_not_valid hv]
  exact ⟨applyValue_defaultDescriptor mode x, applyAddresses_defaultDescriptor mode a⟩

/-- A member of an address set has the canonical base of the set: forcing changes no bit that is already forced. -/
theorem canonicalBase_of_mem {d : Descriptor} {a base : Addr} (h : a &&& ~~~d.fmap = canonicalBase d base) :
    canonicalBase d a = canonicalBase d base := by
  refine BitVec.eq_of_getLsbD_eq fun p hp => ?_
  have hbit := congrArg (fun c => c.getLsbD p) h
  simp only [canonicalBase, getLsbD_clear _ _ hp, BitVec.getLsbD_or] at hbit ⊢
  cases hf : d.fmap.getLsbD p
  · cases ho : (d.ones.setWidth 36).getLsbD p <;> simp_all
  · simp

/-- Settles O16: forced bits are never cleared, and the members of an address set share its canonical base. -/
theorem maskingIsAProjection : Obligations.MaskingIsAProjection := by
  refine ⟨fun s mode x h => applyValue_idem h mode x, fun mode d a base _ ha => ?_⟩
  cases mode with
  | valueMasking => rw [mem_applyAddresses_valueMasking.mp ha]
  | addressFloating =>
    rw [applyAddresses, applyAddresses, canonicalBase_of_mem (mem_applyAddresses_addressFloating.mp ha)]

end Sys2Proof.Machine
end

section
/-! PROOFS. Data memory (20_memory.md): one cell write, extensionality, and the order of the writes of an address set. -/

namespace Sys2Proof.Machine

/-- What every address reads as after one cell write. -/
theorem Memory.read_write {m : Memory} (hm : Memory.wf m) (a b : Addr) (v : Value) :
    Memory.read (Memory.write a v m) b = if b = a then v else Memory.read m b := by
  simp only [Memory.read, Memory.write, Memory.cellAt_setAt hm.1, BitVec.toNat_inj]

/-- Settles O25: setting a cell decides the cell at its key, and distinct addresses have distinct keys. -/
theorem cellReadsBackWhatWasWritten : Obligations.CellReadsBackWhatWasWritten :=
  fun _ a b v hm => Memory.read_write hm a b v

/-- The pairs of a canonical memory are listed in every canonical memory that reads alike. -/
theorem Memory.mem_of_read_eq {m n : Memory} (hm : Memory.wf m) (hn : Memory.wf n)
    (h : ∀ a, Memory.read m a = Memory.read n a) {c : Nat × Value} (hc : c ∈ m) : c ∈ n := by
  have hkey : (BitVec.ofNat 36 c.1).toNat = c.1 := by rw [BitVec.toNat_ofNat, Nat.mod_eq_of_lt (hm.2 c hc).1]
  have hcell := h (BitVec.ofNat 36 c.1)
  rw [Memory.read, Memory.read, hkey] at hcell
  obtain ⟨hval, hne⟩ := (Memory.mem_iff hm c).mp hc
  exact (Memory.mem_iff hn c).mpr ⟨hcell ▸ hval, hne⟩

/-- Canonical memories that read alike are equal (10_state.md rule R35). -/
theorem Memory.eq_of_read_eq {m n : Memory} (hm : Memory.wf m) (hn : Memory.wf n)
    (h : ∀ a, Memory.read m a = Memory.read n a) : m = n :=
  Memory.eq_of_same_members hm.1 hn.1 fun _ =>
    ⟨Memory.mem_of_read_eq hm hn h, Memory.mem_of_read_eq hn hm fun a => (h a).symm⟩

/-- Settles O26: a pair is listed where its cell reads as its value, so memories that read alike list the same pairs. -/
theorem memoriesThatReadAlikeAreEqual : Obligations.MemoriesThatReadAlikeAreEqual :=
  fun _ _ hm hn h => Memory.eq_of_read_eq hm hn h

/-- What is left of an address set's writes is which addresses are in it (20_memory.md rule R60). -/
theorem Memory.foldl_write_eq_writeSet {m : Memory} (hm : Memory.wf m) {as bs : List Addr} (h : ∀ a, a ∈ as ↔ a ∈ bs)
    (v : Value) : as.foldl (fun acc a => Memory.write a v acc) m = Memory.writeSet bs v m := by
  rw [Memory.foldl_write_eq]
  refine Memory.eq_of_read_eq (Memory.wf_writeSet hm _ v) (Memory.wf_writeSet hm _ v) fun a => ?_
  simp only [Memory.read_writeSet hm, List.mem_reverse, h]

/-- Settles O27: both memories are canonical and read alike. -/
theorem orderOfCellWritesDoesNotMatter : Obligations.OrderOfCellWritesDoesNotMatter :=
  fun _ _ _ v hm h => Memory.foldl_write_eq_writeSet hm h v

end Sys2Proof.Machine
end

section
/-! PROOFS. `WRITE` (43_engine_write.md section 3): what it stores in the words of the source, in each mode; the frame, the
stop, the streaming realisation and the sum after one fill. -/

namespace Sys2Proof.Machine

/-! ### The address set and the stored value in the words of the source -/

theorem currentMask_of_valid {s : State} (h : s.mValid = true) :
    s.currentMask = some { ones := s.mOnes, zeros := s.mZeros, fmap := s.mFloat } := if_pos h

theorem currentMask_of_not_valid {s : State} (h : s.mValid = false) : s.currentMask = none := by
  simp [State.currentMask, h]

/-- The address set of `WRITE` is the one that the current descriptor names (41_masking_strategy.md rules R124, R127). -/
theorem mem_applyAddresses_iff (s : State) (addr a : Addr) :
    a ∈ applyAddresses s.mode (effectiveDescriptor s) addr ↔ addressed s.mode s.currentMask addr a = true := by
  cases hm : s.mode with
  | valueMasking => rw [mem_applyAddresses_valueMasking, addressed, beq_iff_eq]
  | addressFloating =>
    cases hv : s.mValid
    · rw [effectiveDescriptor_of_not_valid hv, currentMask_of_not_valid hv, applyAddresses_defaultDescriptor,
        List.mem_singleton, addressed, beq_iff_eq]
    · rw [mem_applyAddresses_addressFloating, canonicalBase_of_valid hv, effectiveDescriptor_of_valid hv,
        currentMask_of_valid hv, addressed, beq_iff_eq]

/-- The value that `WRITE` stores is the one that the current descriptor names (41_masking_strategy.md rule R123). -/
theorem applyValue_eq_stored (s : State) (x : Value) :
    applyValue s.mode (effectiveDescriptor s) x = stored s.mode s.currentMask x := by
  cases hm : s.mode with
  | addressFloating => rfl
  | valueMasking =>
    cases hv : s.mValid
    · rw [effectiveDescriptor_of_not_valid hv, currentMask_of_not_valid hv, applyValue_defaultDescriptor, stored]
    · rw [applyValue_of_valid hv, currentMask_of_valid hv, stored]

/-- What every address reads as after `WRITE`, in the words of the source. -/
theorem read_written_of_currentMask {s : State} (hm : Memory.wf s.mem) (addr : Addr) (value : Value) (a : Addr) :
    Memory.read (s.written addr value).mem a =
      if addressed s.mode s.currentMask addr a then stored s.mode s.currentMask value else Memory.read s.mem a := by
  rw [read_written hm, applyValue_eq_stored]
  simp only [mem_applyAddresses_iff]

/-! ### The two modes -/

/-- A value cut by a zero-extended bitmap is below 2^36. -/
theorem and_zext64_lt (x : Value) (b : Bitmap) : (x &&& zext64 b).toNat < 2 ^ 36 := by
  have hb : (zext64 b).toNat < 2 ^ 36 := by
    rw [zext64, BitVec.toNat_setWidth]
    exact (Nat.mod_le _ _).trans_lt b.isLt
  rw [BitVec.toNat_and]
  exact Nat.and_le_right.trans_lt hb

/-- Settles O29: in Value Masking the address set is the address, and the stored value is cut by `zeros`. -/
theorem writeInValueModeStoresOneMaskedCell : Obligations.WriteInValueModeStoresOneMaskedCell := by
  intro addr value s hmode hm
  have hx := exec_write_of_disjoint (s := s) (fun h => by simp [hmode] at h) addr value
  have hread := read_written_of_currentMask hm addr value
  simp only [hmode, addressed, beq_iff_eq] at hread
  have hcell : Memory.read (s.written addr value).mem addr =
      if s.mValid then (value ||| s.mOnes.setWidth 64) &&& s.mZeros.setWidth 64 else value := by
    rw [hread addr, if_pos rfl]
    cases hv : s.mValid
    · rw [currentMask_of_not_valid hv]
      rfl
    · rw [currentMask_of_valid hv]
      rfl
  refine ⟨_, hx, rfl, hcell, fun hv => ?_, fun a ha => ?_⟩
  · rw [hcell, if_pos hv]
    exact and_zext64_lt _ _
  · rw [hread a, if_neg ha]

/-- Settles O30: in Address-Floating Masking the value goes whole to the set form of the address set. -/
theorem writeInAddressModeFillsTheAddressSet : Obligations.WriteInAddressModeFillsTheAddressSet := by
  intro addr value s hmode hm hdisj
  refine ⟨_, exec_write_of_disjoint (fun _ => hdisj) addr value, rfl, fun a => ?_⟩
  rw [read_written_of_currentMask hm, hmode]
  cases hv : s.mValid
  · simp [currentMask_of_not_valid hv, addressed, stored]
  · simp [currentMask_of_valid hv, addressed, stored]

/-! ### The frame and the stop -/

/-- Settles O31: the only next state of `WRITE` differs in memory, inside the address set, and in `IP`. -/
theorem writeFrame : Obligations.WriteFrame := by
  intro addr value s t h
  obtain ⟨_, _, hi, -⟩ | ⟨_, _, hi, -, rfl⟩ := exec_next_cases h
  · cases hi
  · cases hi
    refine ⟨fun a ha => Memory.read_writeSet_of_not_mem _ _ _ ha, fun hm => wf_written hm addr value, ?_⟩
    simp [State.written]

/-- Settles O32: the registered descriptor is the one in use, and it overlaps. -/
theorem writeStopsOnAnOverlappingDescriptor : Obligations.WriteStopsOnAnOverlappingDescriptor := by
  intro addr value s hmode hv hne
  refine execWrite_of_overlap ?_ addr value
  rw [hmode, effectiveDescriptor_of_valid hv, overlapInUse, setWidth_zext64]
  exact bne_iff_ne.mpr hne

/-! ### Streaming -/

theorem popcount_le (b : Bitmap) : popcount b ≤ 36 := by
  rw [popcount_eq_length]
  exact positions_length_le b

/-- Streaming with calls enough for every k writes the whole address set. -/
theorem streamCells_eq_writeSet {m : Memory} (hm : Memory.wf m) (v : Value) (base : Addr) (fmap : Bitmap) {calls : Nat}
    (hcalls : 2 ^ 36 ≤ calls) :
    streamCells calls v (Generator.start base fmap) m = Memory.writeSet (enumerate base fmap) v m := by
  have hall : (enumerate base fmap).length ≤ calls := by
    rw [enumerate_length]
    exact (Nat.pow_le_pow_right (by decide) (popcount_le fmap)).trans hcalls
  rw [streamCells_eq_foldl, emitted_start, List.take_of_length_le hall]
  exact Memory.foldl_write_eq_writeSet hm (fun _ => Iff.rfl) v

/-- Settles O33: the streamed cells are the address set of the atomic step. -/
theorem streamingWriteEqualsTheAtomicStep : Obligations.StreamingWriteEqualsTheAtomicStep := by
  intro addr value s hmode hm hdisj
  rw [exec_write_of_disjoint (fun _ => hdisj), streamWrite, streamCells_eq_writeSet hm _ _ _ (Nat.le_succ _), State.written,
    hmode]
  rfl

/-! ### One fill -/

/-- Settles O34: the address set has 2^k members, none twice, and each of them holds the value. -/
theorem oneFillMakesTheSumTwoToTheKTimesTheValue : Obligations.OneFillMakesTheSumTwoToTheKTimesTheValue := by
  intro addr value s hmode hmem hdisj
  refine ⟨_, exec_write_of_disjoint (fun _ => hdisj) addr value, ?_⟩
  have hset : (s.written addr value).mem =
      Memory.writeSet (enumerate (canonicalBase (effectiveDescriptor s) addr) (effectiveDescriptor s).fmap) value [] := by
    simp [State.written, hmode, hmem, applyAddresses]
  rw [hset, (Memory.total_writeSet_nodup _ value (enumerate_nodup _ _)).1, enumerate_length]

end Sys2Proof.Machine
end

section
/-! PROOFS. The Execution Engine (43_engine_write.md sections 1 and 4; 10_state.md sections 2, 4 and 9): the step, what it
keeps, and the invariant. -/

namespace Sys2Proof.Machine

/-! ### The step's own work -/

/-- Settles O35: the step's branch for a running machine inside its program. -/
theorem stepRunsTheDecodedInstruction : Obligations.StepRunsTheDecodedInstruction :=
  fun _ _ _ hr he hs hw hd => step_running hr he hs hw hd

/-- Settles O36: the step's branch for a machine that is ready. -/
theorem startStepOnlyEntersRunning : Obligations.StartStepOnlyEntersRunning :=
  fun _ hr he hs => step_ready hr he hs

/-- The result of a canonical memory is the sum over all addresses, without wrap-around. -/
theorem resultOf_toNat_eq_sum {m : Memory} (hm : Memory.wf m) :
    (resultOf m).toNat = ∑ a ∈ Finset.range (2 ^ 36), (Memory.read m (BitVec.ofNat 36 a)).toNat := by
  rw [(Memory.total_le_and_resultOf m hm).2, Memory.total_eq_sum_read hm]

/-- Settles O37: the halt step, and the exact sum in 100 bits. -/
theorem haltStepSumsTheWholeMemory : Obligations.HaltStepSumsTheWholeMemory :=
  fun s hr he hs hip hm => ⟨resultOf s.mem, step_at_end hr he hs hip, resultOf_toNat_eq_sum hm⟩

/-- Settles O43: start and halt write neither input, and no instruction does. -/
theorem stepNeverChangesTheInputs : Obligations.StepNeverChangesTheInputs := by
  intro s t h
  obtain ⟨-, -, ⟨-, rfl⟩ | ⟨w, i, -, -, -, hx⟩ | ⟨-, -, -, rfl⟩⟩ := step_next_cases h
  · simp
  · obtain ⟨-, -, hprog, hmode, herr, hrst, -, -⟩ := exec_engine_fields hx
    exact ⟨hmode, hprog, herr, hrst⟩
  · simp

/-- Settles O44: one disjunct for each thing a step can do. -/
theorem stepMovesTheEngineForwardOnly : Obligations.StepMovesTheEngineForwardOnly := by
  intro s t h
  obtain ⟨-, -, ⟨hs, rfl⟩ | ⟨w, i, hs, hw, -, hx⟩ | ⟨hs, -, hip, rfl⟩⟩ := step_next_cases h
  · exact ⟨.inl ⟨hs, rfl, rfl, rfl⟩, id⟩
  · obtain ⟨hes, hip, -, -, -, -, hresult, hvalid⟩ := exec_engine_fields hx
    exact ⟨.inr (.inl ⟨hs, hes.trans hs, fetch_eq_some hw, hip, hresult⟩), hvalid⟩
  · exact ⟨.inr (.inr ⟨hs, rfl, hip, rfl⟩), id⟩

/-! ### The invariant -/

/-- The invariant of a running machine: the clauses about the other engine states say nothing of it. -/
theorem inv_of_running {s : State} (hs : s.es = .running) (hr : s.rst = false) (he : s.err = none)
    (hmem : Memory.wf s.mem) (hip : s.ip ≤ s.programLength)
    (hmask : s.mValid = true → s.mOnes &&& s.mFloat = 0 ∧ s.mZeros = s.mOnes ||| s.mFloat)
    (hprog : validate s.prog = none) : s.Inv where
  memCanonical := hmem
  pointerInRange := hip
  maskConsistent := hmask
  readyIsFresh := by simp [hs]
  errorIsReady := by simp [he]
  heldIsReady := by simp [hr]
  programValidated := fun _ _ => hprog
  haltedIsDone := by simp [hs]

/-- The start step keeps the invariant. -/
theorem start_inv {s : State} (hi : s.Inv) (hr : s.rst = false) (he : s.err = none) : s.start.Inv :=
  inv_of_running rfl hr he hi.memCanonical hi.pointerInRange hi.maskConsistent (hi.programValidated hr he)

/-- `SETMASK` leaves consistent mask registers, and `WRITE` the ones it found. -/
theorem exec_maskConsistent {i : Instr} {s t : State} (h : exec i s = .next t)
    (hs : s.mValid = true → s.mOnes &&& s.mFloat = 0 ∧ s.mZeros = s.mOnes ||| s.mFloat) :
    t.mValid = true → t.mOnes &&& t.mFloat = 0 ∧ t.mZeros = t.mOnes ||| t.mFloat := by
  obtain ⟨px, p1, -, hd, rfl⟩ | ⟨addr, value, -, -, rfl⟩ := exec_next_cases h
  · exact fun _ => ⟨(BitVec.and_comm p1 px).trans (planesDisjoint_eq_true.mp hd), rfl⟩
  · exact hs

/-- An instruction keeps the canonical form of memory. -/
theorem exec_memCanonical {i : Instr} {s t : State} (h : exec i s = .next t) (hs : Memory.wf s.mem) :
    Memory.wf t.mem := by
  obtain ⟨px, p1, -, -, rfl⟩ | ⟨addr, value, -, -, rfl⟩ := exec_next_cases h
  · exact hs
  · exact wf_written hs addr value

/-- An instruction of the program keeps the invariant of a running machine. -/
theorem exec_inv {i : Instr} {s t : State} (hi : s.Inv) (hr : s.rst = false) (he : s.err = none) (hs : s.es = .running)
    (hip : s.ip < s.programLength) (h : exec i s = .next t) : t.Inv := by
  obtain ⟨hes', hip', hprog', -, herr', hrst', -, -⟩ := exec_engine_fields h
  refine inv_of_running (hes'.trans hs) (hrst'.trans hr) (herr'.trans he) (exec_memCanonical h hi.memCanonical) ?_
    (exec_maskConsistent h hi.maskConsistent) ?_
  · rw [hip', State.programLength, hprog']
    exact hip
  · rw [hprog']
    exact hi.programValidated hr he

/-- The halt step keeps the invariant: `RESULT` is the exact sum. -/
theorem halt_inv {s : State} (hi : s.Inv) (hr : s.rst = false) (he : s.err = none) (hip : s.ip = s.programLength) :
    s.halt.Inv where
  memCanonical := hi.memCanonical
  pointerInRange := hi.pointerInRange
  maskConsistent := hi.maskConsistent
  readyIsFresh := by simp
  errorIsReady := by simp [he]
  heldIsReady := by simp [hr]
  programValidated := hi.programValidated
  haltedIsDone := fun _ => ⟨hip, (Memory.total_le_and_resultOf s.mem hi.memCanonical).2⟩

/-- Settles O40: each of the three things a step can do keeps the invariant. -/
theorem stepKeepsTheInvariant : Obligations.StepKeepsTheInvariant := by
  intro s t hi h
  obtain ⟨hr, he, ⟨-, rfl⟩ | ⟨w, i, hs, hw, -, hx⟩ | ⟨-, -, hip, rfl⟩⟩ := step_next_cases h
  · exact start_inv hi hr he
  · exact exec_inv hi hr he hs (fetch_eq_some hw) hx
  · exact halt_inv hi hr he hip

/-- A machine at its reset values meets the invariant, whatever its inputs are, where a store that can run was validated. -/
theorem fresh_inv {rst : Bool} {mode : Mode} {prog : List Word} {err : Option ParseError}
    (h : rst = false → err = none → validate prog = none) :
    State.Inv { State.reset with rst := rst, mode := mode, prog := prog, err := err } where
  memCanonical := ⟨.nil, fun _ hc => absurd hc List.not_mem_nil⟩
  pointerInRange := Nat.zero_le _
  maskConsistent := by simp [State.reset]
  readyIsFresh := fun _ => ⟨rfl, rfl, rfl⟩
  errorIsReady := fun _ => rfl
  heldIsReady := fun _ => rfl
  programValidated := h
  haltedIsDone := by simp [State.reset]

/-- Settles O41: the reset state is fresh, and the empty program is valid. -/
theorem resetMeetsTheInvariant : Obligations.ResetMeetsTheInvariant := fresh_inv fun _ _ => rfl

/-- The release of reset as one record: the reset values, the inputs and the result of validation. -/
theorem release_eq (mode : Mode) (prog : List Word) :
    release mode prog = { State.reset with mode := mode, prog := prog, err := validate prog } := by
  cases hv : validate prog with
  | none => exact release_of_valid hv mode
  | some e => exact release_of_invalid hv mode

/-- Settles O42: the fields of the released state, and the invariant of a fresh machine. -/
theorem releaseGivesTheResetTable : Obligations.ReleaseGivesTheResetTable := by
  intro mode prog
  rw [release_eq]
  exact ⟨fresh_inv fun _ he => he, rfl, rfl, rfl, fun _ => rfl, rfl, rfl, rfl, rfl⟩

/-! ### The step of every state that meets the invariant -/

/-- Inside the program of a running machine there is an instruction, and it completes (43_engine_write.md rule R162). -/
theorem running_step {s : State} (hi : s.Inv) (hr : s.rst = false) (he : s.err = none) (hs : s.es = .running)
    (hip : s.ip < s.programLength) :
    ∃ w i t, s.fetch = some w ∧ decode w = .legal i ∧ exec i s = .next t ∧ step s = .next t := by
  obtain ⟨w, hw⟩ : ∃ w, s.fetch = some w := ⟨_, List.getElem?_eq_getElem hip⟩
  obtain ⟨i, hd⟩ := fetch_legal (hi.programValidated hr he) hw
  obtain ⟨t, hx⟩ := exec_completes hi (wf_of_decode hd)
  exact ⟨w, i, t, hw, hd, hx, (step_running hr he hs hw hd).trans hx⟩

/-- Settles O38: one row of the table after the other. -/
theorem everyStateHasTheStepOfTheTable : Obligations.EveryStateHasTheStepOfTheTable := by
  intro s hi hr
  refine ⟨fun e he => step_of_error hr he, fun he hs => ?_, fun he hs hip => ?_, fun he hs hip => ?_,
    fun he hs => step_of_halted hr he hs⟩
  · exact ⟨s.start, step_ready hr he hs, rfl, (hi.readyIsFresh hs).1⟩
  · obtain ⟨w, i, t, hw, hd, hx, hstep⟩ := running_step hi hr he hs hip
    obtain ⟨hes', hip', -⟩ := exec_engine_fields hx
    exact ⟨w, i, t, hw, hd, hx, hstep, hes'.trans hs, hip'⟩
  · exact ⟨s.halt, step_at_end hr he hs hip, rfl⟩

/-- Settles O39: the inputs, `ERR`, `ES` and `IP` decide which way out it is. -/
theorem noStepFailsDuringARun : Obligations.NoStepFailsDuringARun := by
  intro s hi
  cases hr : s.rst with
  | true => exact .inr (.inr (.inr ⟨step_of_held hr, rfl⟩))
  | false =>
    cases he : s.err with
    | some e => exact .inr (.inl ⟨e, step_of_error hr he, rfl, rfl, hi.errorIsReady (by simp [he])⟩)
    | none =>
      cases hs : s.es with
      | ready => exact .inl ⟨_, step_ready hr he hs⟩
      | halted => exact .inr (.inr (.inl ⟨step_of_halted hr he hs, rfl, rfl, rfl⟩))
      | running =>
        obtain hip | hip := hi.pointerInRange.lt_or_eq
        · obtain ⟨-, -, t, -, -, -, hstep⟩ := running_step hi hr he hs hip
          exact .inl ⟨t, hstep⟩
        · exact .inl ⟨_, step_at_end hr he hs hip⟩

end Sys2Proof.Machine
end

section
/-! PROOFS. Runs (43_engine_write.md section 2; 20_memory.md section 7): the number of steps, and what every cell holds after
each of them. -/

namespace Sys2Proof.Machine

/-- A machine in the middle of a run: it meets the invariant and is running. -/
structure State.InRun (s : State) : Prop where
  inv : s.Inv
  rst : s.rst = false
  err : s.err = none
  es : s.es = .running

/-- The start step begins a run. -/
theorem start_inRun {s : State} (hi : s.Inv) (hr : s.rst = false) (he : s.err = none) : s.start.InRun :=
  ⟨start_inv hi hr he, hr, he, rfl⟩

/-- An instruction of the program leaves the machine in its run. -/
theorem exec_inRun {i : Instr} {s t : State} (h : s.InRun) (hip : s.ip < s.programLength) (hx : exec i s = .next t) :
    t.InRun := by
  obtain ⟨hes', -, -, -, herr', hrst', -, -⟩ := exec_engine_fields hx
  exact ⟨exec_inv h.inv h.rst h.err h.es hip hx, hrst'.trans h.rst, herr'.trans h.err, hes'.trans h.es⟩

/-- The instruction that a running machine with instructions left runs next. -/
theorem inRun_step {s : State} (h : s.InRun) {i : Instr} {is : List Instr}
    (his : instructionsOf (s.prog.drop s.ip) = some (i :: is)) :
    s.ip < s.programLength ∧ ∃ t, exec i s = .next t ∧ step s = .next t ∧
      instructionsOf (s.prog.drop (s.ip + 1)) = some is := by
  have hip : s.ip < s.programLength := by
    have hlen := (instructionsOf_length his).1
    rw [List.length_cons, List.length_drop] at hlen
    rw [State.programLength]
    omega
  rw [List.drop_eq_getElem_cons hip] at his
  obtain ⟨i', is', hd, hrest, heq⟩ := instructionsOf_cons his
  cases heq
  obtain ⟨t, hx⟩ := exec_completes h.inv (wf_of_decode hd)
  exact ⟨hip, t, hx, (step_running h.rst h.err h.es (List.getElem?_eq_getElem hip) hd).trans hx, hrest⟩

/-- What an instruction makes of a cell and of the current descriptor is what `cellAfter` makes of them. -/
theorem cellAfter_exec {i : Instr} {s t : State} (hm : Memory.wf s.mem) (hx : exec i s = .next t) (is : List Instr)
    (a : Addr) :
    cellAfter s.mode a s.currentMask (i :: is) (Memory.read s.mem a) =
      cellAfter t.mode a t.currentMask is (Memory.read t.mem a) := by
  obtain ⟨px, p1, rfl, -, rfl⟩ | ⟨addr, value, rfl, -, rfl⟩ := exec_next_cases hx
  · rfl
  · rw [read_written_of_currentMask hm]
    rfl

/-- After each number of the instructions left the machine is still in its run, and every cell holds what the instructions
so far make of it. -/
theorem after_inRun {s : State} (h : s.InRun) {is : List Instr} (his : instructionsOf (s.prog.drop s.ip) = some is)
    {k : Nat} (hk : k ≤ is.length) :
    ∃ t, after k s = .next t ∧ t.InRun ∧ t.ip = s.ip + k ∧ t.prog = s.prog ∧
      ∀ a, Memory.read t.mem a = cellAfter s.mode a s.currentMask (is.take k) (Memory.read s.mem a) := by
  induction k generalizing s is with
  | zero => exact ⟨s, rfl, h, rfl, rfl, fun _ => rfl⟩
  | succ k ih =>
    cases is with
    | nil => exact absurd hk (Nat.not_succ_le_zero k)
    | cons i is =>
      obtain ⟨hip, u, hx, hstep, hrest⟩ := inRun_step h his
      obtain ⟨-, hip', hprog', -⟩ := exec_engine_fields hx
      rw [← hip', ← hprog'] at hrest
      obtain ⟨t, hafter, hrun, htip, htprog, hread⟩ := ih (exec_inRun h hip hx) hrest (Nat.le_of_succ_le_succ hk)
      refine ⟨t, (after_succ k hstep).trans hafter, hrun, ?_, htprog.trans hprog', fun a => ?_⟩
      · rw [htip, hip']
        omega
      · rw [hread, List.take_succ_cons, cellAfter_exec h.inv.memCanonical hx]

/-- After all the instructions left every cell holds what they make of it, and the next step is the halt. -/
theorem after_inRun_end {s : State} (h : s.InRun) {is : List Instr} (his : instructionsOf (s.prog.drop s.ip) = some is) :
    ∃ t, after is.length s = .next t ∧ t.InRun ∧ t.ip = s.programLength ∧ step t = .next t.halt ∧
      ∀ a, Memory.read t.mem a = cellAfter s.mode a s.currentMask is (Memory.read s.mem a) := by
  obtain ⟨t, hafter, hrun, hip, hprog, hread⟩ := after_inRun h his (le_refl _)
  have hend : t.ip = s.programLength := by
    have hle : s.ip ≤ s.prog.length := h.inv.pointerInRange
    have hlen := (instructionsOf_length his).1
    rw [List.length_drop] at hlen
    rw [hip, State.programLength]
    omega
  refine ⟨t, hafter, hrun, hend, step_at_end hrun.rst hrun.err hrun.es ?_, fun a => ?_⟩
  · rw [hend, State.programLength, State.programLength, hprog]
  · rw [hread, List.take_length]

/-- One step more than some steps. -/
theorem after_succ_of_after {k : Nat} {s t u : State} (h : after k s = .next t) (hstep : step t = .next u) :
    after (k + 1) s = .next u := by
  rw [after_add, h]
  exact after_succ 0 hstep

/-! ### The length of a run -/

/-- Settles O45: the start step, one step for each instruction, and the halt step; before it the machine has not halted. -/
theorem runTakesExactlyNPlusTwoSteps : Obligations.RunTakesExactlyNPlusTwoSteps := by
  intro s hi hr he hs
  have hfresh : s.start.ip = 0 := (hi.readyIsFresh hs).1
  have hstart := step_ready hr he hs
  have hrun := start_inRun hi hr he
  obtain ⟨is, his⟩ := instructionsOf_eq_some (hi.programValidated hr he)
  have hlen : is.length = s.prog.length := (instructionsOf_length his).1
  have hleft : instructionsOf (s.start.prog.drop s.start.ip) = some is := by
    rw [hfresh]
    exact his
  refine ⟨?_, fun k hk => ?_⟩
  · obtain ⟨t, hafter, htrun, hip, hhalt, -⟩ := after_inRun_end hrun hleft
    refine ⟨t.halt, ?_, rfl, hip, step_of_halted htrun.rst htrun.err rfl⟩
    rw [← hlen]
    exact (after_succ _ hstart).trans (after_succ_of_after hafter hhalt)
  · cases k with
    | zero => exact ⟨s, rfl, by simp [hs]⟩
    | succ k =>
      obtain ⟨t, hafter, htrun, -⟩ := after_inRun hrun hleft (k := k) (by omega)
      exact ⟨t, (after_succ k hstart).trans hafter, by simp [htrun.es]⟩

/-! ### What every cell holds -/

/-- From the release of reset on a legal program: the start step and all the instructions, and then the halt step. -/
theorem after_release {mode : Mode} {prog : List Word} {is : List Instr} (his : instructionsOf prog = some is) :
    ∃ t, after (prog.length + 1) (release mode prog) = .next t ∧ t.InRun ∧ t.ip = prog.length ∧
      after (prog.length + 2) (release mode prog) = .next t.halt ∧
      ∀ a, Memory.read t.mem a = cellAfter mode a none is 0 := by
  obtain ⟨hlen, hv⟩ := instructionsOf_length his
  obtain ⟨hi, hs, -, -, -, herr, -, -, hr⟩ := releaseGivesTheResetTable mode prog
  have he := herr.trans hv
  have hstart := step_ready hr he hs
  obtain ⟨t, hafter, hrun, hip, hhalt, hread⟩ := after_inRun_end (s := (release mode prog).start) (is := is)
    (start_inRun hi hr he) (by rw [release_of_valid hv]; exact his)
  rw [hlen] at hafter
  have hall := (after_succ _ hstart).trans hafter
  rw [release_of_valid hv] at hip hread
  exact ⟨t, hall, hrun, hip, after_succ_of_after hall hhalt, hread⟩

/-- Settles O46: `cellAfter` follows the run instruction by instruction; the halt step keeps memory. -/
theorem everyCellHoldsTheLastWrite : Obligations.EveryCellHoldsTheLastWrite := by
  refine ⟨fun s is hi hr he hs his k hk => ?_, fun mode prog is his => ?_⟩
  · obtain ⟨t, hafter, hrun, hip, -, hread⟩ := after_inRun ⟨hi, hr, he, hs⟩ his hk
    exact ⟨t, hafter, hrun.es, hip, hread⟩
  · obtain ⟨t, hafter, hrun, hip, hhalt, hread⟩ := after_release (mode := mode) his
    exact ⟨⟨t, hafter, hrun.es, hip, hread⟩, t.halt, hhalt, rfl, hip, hread⟩

/-- Settles O47: the halted machine shows the sum of a memory that reads as `cellAfter`. -/
theorem hostReadsTheSumOfTheLastWrites : Obligations.HostReadsTheSumOfTheLastWrites := by
  intro mode prog is his
  obtain ⟨t, -, hrun, -, hhalt, hread⟩ := after_release (mode := mode) his
  refine ⟨t.halt, resultOf t.mem, hhalt, if_pos ⟨rfl, hrun.rst⟩, ?_⟩
  rw [resultOf_toNat_eq_sum hrun.inv.memCanonical]
  exact Finset.sum_congr rfl fun a _ => by rw [hread]

end Sys2Proof.Machine
end

section
/-! PROOFS. What no rule reads cannot matter (10_state.md rules R26 to R29, R31): two states that differ at most there use
the same descriptor fields, so they take the same step. -/

namespace Sys2Proof.Machine

/-! ### The steps that no validated program takes -/

theorem step_of_illegal_word {s : State} {w : Word} {e : ParseError} (hr : s.rst = false) (he : s.err = none)
    (hs : s.es = .running) (hw : s.fetch = some w) (hd : decode w = .illegal e) :
    step s = .refused (.unvalidatedWord e) := by
  simp [step, hr, he, hs, hw, hd]

theorem step_past_end {s : State} (hr : s.rst = false) (he : s.err = none) (hs : s.es = .running) (hw : s.fetch = none)
    (hip : s.ip ≠ s.programLength) : step s = .fault .pointerPastEnd := by
  simp [step, hr, he, hs, hw, hip]

/-! ### What two such states have in common -/

section
variable {s t : State} (h : SameToARun s t)
include h

/-- The fields of the effective descriptor that the mode reads are the same. -/
theorem SameToARun.descriptor_eq :
    (effectiveDescriptor s).ones = (effectiveDescriptor t).ones ∧
    (s.mode = .valueMasking → (effectiveDescriptor s).zeros = (effectiveDescriptor t).zeros) ∧
    (s.mode = .addressFloating → (effectiveDescriptor s).fmap = (effectiveDescriptor t).fmap) := by
  cases hv : s.mValid
  · rw [effectiveDescriptor_of_not_valid hv, effectiveDescriptor_of_not_valid (h.mValid ▸ hv)]
    exact ⟨rfl, fun _ => rfl, fun _ => rfl⟩
  · rw [effectiveDescriptor_of_valid hv, effectiveDescriptor_of_valid (h.mValid ▸ hv)]
    exact ⟨congrArg zext64 (h.ones hv), fun hm => congrArg zext64 (h.zeros hv hm), h.floating hv⟩

/-- No function of the Masking Strategy unit tells the two states apart: Value Masking does not read `fmap`, and
Address-Floating Masking does not read `zeros`. -/
theorem SameToARun.strategy_eq :
    overlapInUse s.mode (effectiveDescriptor s) = overlapInUse t.mode (effectiveDescriptor t) ∧
    (∀ addr, applyAddresses s.mode (effectiveDescriptor s) addr = applyAddresses t.mode (effectiveDescriptor t) addr) ∧
    ∀ x, applyValue s.mode (effectiveDescriptor s) x = applyValue t.mode (effectiveDescriptor t) x := by
  obtain ⟨hones, hzeros, hfmap⟩ := h.descriptor_eq
  rw [← h.mode]
  cases hm : s.mode with
  | valueMasking =>
    refine ⟨rfl, fun _ => rfl, fun x => ?_⟩
    rw [applyValue, applyValue, hones, hzeros hm]
  | addressFloating =>
    refine ⟨?_, fun addr => ?_, fun _ => rfl⟩
    · rw [overlapInUse, overlapInUse, hones, hfmap hm]
    · rw [applyAddresses, applyAddresses, canonicalBase, canonicalBase, hones, hfmap hm]

/-! ### The same step -/

theorem SameToARun.start : SameToARun s.start t.start :=
  { h with
    es := rfl
    result := by simp }

/-- The halt step writes the same sum to `RESULT`. -/
theorem SameToARun.halt : SameToARun s.halt t.halt :=
  { h with
    es := rfl
    result := fun _ => by rw [State.halt_result, State.halt_result, h.mem] }

/-- `SETMASK` writes every register that was not read. -/
theorem SameToARun.setmask (ones zeros fmap : Bitmap) :
    SameToARun (s.setMaskBitmaps ones zeros fmap).markMaskValid.advance
      (t.setMaskBitmaps ones zeros fmap).markMaskValid.advance :=
  { h with
    ip := congrArg (· + 1) h.ip
    mValid := rfl
    ones := fun _ => rfl
    zeros := fun _ _ => rfl
    floating := fun _ _ => rfl }

/-- `WRITE` stores the same value at the same addresses. -/
theorem SameToARun.written (addr : Addr) (value : Value) : SameToARun (s.written addr value) (t.written addr value) := by
  obtain ⟨-, haddrs, hvalue⟩ := h.strategy_eq
  have hmem : (s.written addr value).mem = (t.written addr value).mem := by
    simp only [State.written, State.advance_mem, State.writeCells_mem, haddrs, hvalue, h.mem]
  exact
    { h with
      ip := congrArg (· + 1) h.ip
      mem := hmem }

/-- An instruction completes in both states or stops alike in both. -/
theorem SameToARun.exec (i : Instr) : SameOutcome (exec i s) (exec i t) := by
  cases i with
  | setmask px p1 =>
    simp only [Machine.exec]
    cases hd : planesDisjoint px p1
    · rw [execSetmask_of_overlap hd, execSetmask_of_overlap hd]
      rfl
    · rw [execSetmask_of_disjoint hd, execSetmask_of_disjoint hd]
      exact h.setmask p1 (p1 ||| px) px
  | write addr value =>
    simp only [Machine.exec]
    cases ho : overlapInUse s.mode (effectiveDescriptor s)
    · rw [execWrite_of_no_overlap ho, execWrite_of_no_overlap (h.strategy_eq.1 ▸ ho)]
      exact h.written addr value
    · rw [execWrite_of_overlap ho, execWrite_of_overlap (h.strategy_eq.1 ▸ ho)]
      rfl

/-- A running machine runs the same instruction, halts at the same place, or stops alike. -/
theorem SameToARun.step_running (hr : s.rst = false) (he : s.err = none) (hs : s.es = .running) :
    SameOutcome (step s) (step t) := by
  have hr' : t.rst = false := h.rst ▸ hr
  have he' : t.err = none := h.err ▸ he
  have hs' : t.es = .running := h.es ▸ hs
  have hfetch : t.fetch = s.fetch := by rw [State.fetch, State.fetch, h.prog, h.ip]
  cases hw : s.fetch with
  | some w =>
    cases hd : decode w with
    | legal i =>
      rw [Machine.step_running hr he hs hw hd, Machine.step_running hr' he' hs' (hfetch.trans hw) hd]
      exact h.exec i
    | illegal e =>
      rw [step_of_illegal_word hr he hs hw hd, step_of_illegal_word hr' he' hs' (hfetch.trans hw) hd]
      rfl
  | none =>
    have hend : t.ip = t.programLength ↔ s.ip = s.programLength := by
      rw [State.programLength, State.programLength, h.prog, h.ip]
    by_cases hip : s.ip = s.programLength
    · rw [step_at_end hr he hs hip, step_at_end hr' he' hs' (hend.mpr hip)]
      exact h.halt
    · rw [step_past_end hr he hs hw hip, step_past_end hr' he' hs' (hfetch.trans hw) (mt hend.mp hip)]
      rfl

/-- The two states take the same step, or stop alike. -/
theorem SameToARun.step : SameOutcome (step s) (step t) := by
  cases hr : s.rst with
  | true =>
    rw [step_of_held hr, step_of_held (h.rst ▸ hr)]
    rfl
  | false =>
    have hr' : t.rst = false := h.rst ▸ hr
    cases he : s.err with
    | some e =>
      rw [step_of_error hr he, step_of_error hr' (h.err ▸ he)]
      rfl
    | none =>
      have he' : t.err = none := h.err ▸ he
      cases hs : s.es with
      | ready =>
        rw [step_ready hr he hs, step_ready hr' he' (h.es ▸ hs)]
        exact h.start
      | halted =>
        rw [step_of_halted hr he hs, step_of_halted hr' he' (h.es ▸ hs)]
        rfl
      | running => exact h.step_running hr he hs

end

/-- Settles O48: the cases of the step, in each of which no unread register is used. -/
theorem unreadRegistersCannotMatter : Obligations.UnreadRegistersCannotMatter := fun _ _ h => h.step

end Sys2Proof.Machine
end

section
/-! PROOFS. Validation (60_exceptions.md): the first error of a list, and the binary program that is refused. -/

namespace Sys2Proof.Machine

/-! ### The first error of a list -/

/-- The first error that a list's members raise, by the index it is raised at. -/
theorem findSome?_eq_some_iff_getElem? {α ε : Type} {f : α → Option ε} {l : List α} {e : ε} :
    l.findSome? f = some e ↔
      ∃ (n : Nat) (a : α), l[n]? = some a ∧ f a = some e ∧ ∀ j < n, ∃ b, l[j]? = some b ∧ f b = none := by
  rw [List.findSome?_eq_some_iff]
  constructor
  · rintro ⟨l₁, a, l₂, rfl, ha, hbefore⟩
    refine ⟨l₁.length, a, by simp, ha, fun j hj => ⟨l₁[j], ?_, hbefore _ (List.getElem_mem hj)⟩⟩
    rw [List.getElem?_append_left hj, List.getElem?_eq_getElem hj]
  · rintro ⟨n, a, hn, ha, hbefore⟩
    obtain ⟨hlt, rfl⟩ := List.getElem?_eq_some_iff.mp hn
    refine ⟨l.take n, l[n], l.drop (n + 1), ?_, ha, fun x hx => ?_⟩
    · rw [← List.drop_eq_getElem_cons hlt, List.take_append_drop]
    · obtain ⟨j, hj, rfl⟩ := List.mem_take_iff_getElem.mp hx
      obtain ⟨b, hb, hnone⟩ := hbefore j (lt_of_lt_of_le hj (Nat.min_le_left _ _))
      obtain ⟨_, rfl⟩ := List.getElem?_eq_some_iff.mp hb
      exact hnone

/-! ### The first illegal word -/

/-- The error a word is validated to; none where it is legal. -/
def wordError (w : Word) : Option ParseError :=
  match decode w with
  | .legal _ => none
  | .illegal e => some e

theorem wordError_eq_some {w : Word} {e : ParseError} : wordError w = some e ↔ decode w = .illegal e := by
  unfold wordError
  cases decode w <;> simp

theorem wordError_eq_none {w : Word} : wordError w = none ↔ ∃ i, decode w = .legal i := by
  unfold wordError
  cases decode w <;> simp

/-- Validation answers the first error of the program store (60_exceptions.md rule R193). -/
theorem validate_eq_findSome? (prog : List Word) : validate prog = prog.findSome? wordError := by
  induction prog with
  | nil => rfl
  | cons w ws ih =>
    cases hd : decode w with
    | legal i => rw [validate_cons_legal hd, List.findSome?_cons, wordError_eq_none.mpr ⟨i, hd⟩, ih]
    | illegal e => rw [validate_cons_illegal hd, List.findSome?_cons, wordError_eq_some.mpr hd]

/-- The error of validation by the index of the word that decides it (60_exceptions.md rule R199). -/
theorem validate_eq_some {prog : List Word} {e : ParseError} :
    validate prog = some e ↔
      ∃ (n : Nat) (w : Word), prog[n]? = some w ∧ decode w = .illegal e ∧
        ∀ j < n, ∃ w' i, prog[j]? = some w' ∧ decode w' = .legal i := by
  rw [validate_eq_findSome?, findSome?_eq_some_iff_getElem?]
  simp only [wordError_eq_some, wordError_eq_none, exists_and_left]

/-- Validation never answers `MalformedInteger`: no word is one (60_exceptions.md rule R195). -/
theorem validate_ne_malformedInteger (prog : List Word) : validate prog ≠ some .malformedInteger := fun h => by
  obtain ⟨-, w, -, hw, -⟩ := validate_eq_some.mp h
  exact decode_ne_malformedInteger w hw

/-- The code of `ERR` tells the errors and their absence apart (10_state.md rule R30). -/
theorem errCode_inj {e e' : Option ParseError} : errCode e = errCode e' ↔ e = e' := by
  constructor
  · obtain _ | _ | _ | _ := e <;> obtain _ | _ | _ | _ := e' <;> decide
  · exact congrArg errCode

/-- Settles O49: the first error by its index, and the codes by their being distinct. -/
theorem firstIllegalWordDecidesTheError : Obligations.FirstIllegalWordDecidesTheError := by
  refine ⟨fun _ _ => validate_eq_some, fun prog => ⟨fun h => ?_, errCode_inj (e' := some .malformedMask),
    errCode_inj (e' := some .malformedInstruction), ?_⟩, rfl, rfl, rfl, rfl⟩
  · exact validate_ne_malformedInteger prog ((errCode_inj (e' := some .malformedInteger)).mp h)
  · exact (errCode_inj (e' := none)).trans validate_eq_none

/-! ### A refused program -/

/-- Outside `Halted` the host gets no `RESULT`. -/
theorem outResult_of_ready {s : State} (h : s.es = .ready) : s.outResult = none := by
  simp [State.outResult, h]

/-- Settles O50: an error holds the engine in `Ready`, where nothing has happened, and there it has no step. -/
theorem malformedProgramNeverRuns : Obligations.MalformedProgramNeverRuns := by
  refine ⟨fun s e hi he => ?_, fun mode prog e hv => ?_⟩
  · have hne : s.err ≠ none := by simp [he]
    have hs := hi.errorIsReady hne
    obtain ⟨hip, hvalid, hmem⟩ := hi.readyIsFresh hs
    refine ⟨step_ne_next_of_error hne, hs, hip, hvalid, fun a => ?_, outResult_of_ready hs⟩
    rw [hmem]
    rfl
  · rw [release_of_invalid hv]
    exact ⟨rfl, step_of_error rfl rfl, outResult_of_ready rfl⟩

end Sys2Proof.Machine
end

section
/-! PROOFS. One line of program text (30_encoding.md section 5): its shape, what it assembles to, and its canonical form. -/

namespace Sys2Proof.Machine

/-! ### Classification -/

/-- When a line is a `mask` line (30_encoding.md rule R82 (1)). -/
theorem classify_eq_maskLine {l p : Line} : classify l = .maskLine p ↔ l = maskPrefix ++ p := by
  constructor
  · intro h
    unfold classify at h
    split at h
    · rename_i p' hp
      cases h
      exact stripPrefix_eq_some.mp hp
    · split at h
      · cases h
      · split at h <;> cases h
  · rintro rfl
    exact classify_mask p

/-- A text splits at an occurrence of the separator that no other precedes. -/
theorem splitAtSeparator_eq_some {r a v : Line} :
    splitAtSeparator r = some (a, v) ↔
      r = a ++ memSeparator ++ v ∧
        ∀ a' v', a ++ memSeparator ++ v = a' ++ memSeparator ++ v' → a.length ≤ a'.length := by
  constructor
  · intro h
    have hr := splitAtSeparator_sound h
    exact ⟨hr, fun a' v' h' => splitAtSeparator_first h (hr.trans h')⟩
  · rintro ⟨rfl, hfirst⟩
    obtain ⟨b, w, hsplit⟩ := splitAtSeparator_complete rfl
    have heq := splitAtSeparator_sound hsplit
    have hlen : a.length = b.length := le_antisymm (hfirst b w heq) (splitAtSeparator_first hsplit rfl)
    rw [List.append_assoc, List.append_assoc] at heq
    obtain ⟨rfl, hrest⟩ := List.append_inj heq hlen
    obtain rfl := List.append_cancel_left hrest
    exact hsplit

/-- When a line is a `mem` line (30_encoding.md rule R82 (2)). -/
theorem classify_eq_memLine_iff_split {l a v : Line} :
    classify l = .memLine a v ↔ ∃ r, l = memPrefix ++ r ∧ splitAtSeparator r = some (a, v) := by
  constructor
  · intro h
    unfold classify at h
    split at h
    · cases h
    · split at h
      · cases h
      · rename_i r hr
        split at h
        · rename_i hs
          cases h
          exact ⟨r, stripPrefix_eq_some.mp hr, hs⟩
        · cases h
  · rintro ⟨r, rfl, hs⟩
    have hmask : stripPrefix maskPrefix (memPrefix ++ r) = none :=
      stripPrefix_eq_none.mpr fun p => memPrefix_ne_maskPrefix r p
    simp [classify, hmask, stripPrefix_append, hs]

/-- The same in terms of the line: the separator occurs nowhere earlier. -/
theorem classify_eq_memLine {l a v : Line} :
    classify l = .memLine a v ↔
      l = memPrefix ++ a ++ memSeparator ++ v ∧
        ∀ a' v', a ++ memSeparator ++ v = a' ++ memSeparator ++ v' → a.length ≤ a'.length := by
  rw [classify_eq_memLine_iff_split]
  simp only [splitAtSeparator_eq_some, List.append_assoc]
  constructor
  · rintro ⟨r, rfl, rfl, hfirst⟩
    exact ⟨rfl, hfirst⟩
  · rintro ⟨rfl, hfirst⟩
    exact ⟨_, rfl, rfl, hfirst⟩

/-- A text without the separator does not split. -/
theorem splitAtSeparator_eq_none {r : Line} : splitAtSeparator r = none ↔ ∀ a v, r ≠ a ++ memSeparator ++ v := by
  constructor
  · rintro h a v rfl
    obtain ⟨b, w, hsplit⟩ := splitAtSeparator_complete (l := a ++ memSeparator ++ v) rfl
    rw [h] at hsplit
    cases hsplit
  · exact fun h => Option.eq_none_iff_forall_ne_some.mpr fun x hx => h x.1 x.2 (splitAtSeparator_sound hx)

/-- When a line is of neither shape, in terms of the line (30_encoding.md rule R82 (3)). -/
theorem classify_eq_neither_iff_ne {l : Line} :
    classify l = .neither ↔ (∀ p, l ≠ maskPrefix ++ p) ∧ ∀ a v, l ≠ memPrefix ++ a ++ memSeparator ++ v := by
  rw [classify_eq_neither]
  refine and_congr_right fun _ => ?_
  simp only [splitAtSeparator_eq_none, List.append_assoc]
  exact ⟨fun h a v hl => h _ hl a v rfl, fun h r hl a v hr => h a v (hr ▸ hl)⟩

/-- Settles O51: each shape by the strips that find it. -/
theorem linesAreClassifiedByTheirShape : Obligations.LinesAreClassifiedByTheirShape :=
  fun _ => ⟨fun _ => classify_eq_maskLine, fun _ _ => classify_eq_memLine, classify_eq_neither_iff_ne,
    fun h => ⟨by simp [assembleLine, h], fun ls => by simp [validateText, h]⟩⟩

/-! ### A `mask` line -/

/-- When a pattern text is accepted, and as which symbols (30_encoding.md rule R83). -/
theorem parsePattern_eq_some {t : Line} {S : List Sym} :
    parsePattern t = some S ↔ S.length = 36 ∧ t = S.map charOfSym := by
  rw [parsePattern, Option.ite_none_right_eq_some, symsOfText_eq_some]
  constructor
  · rintro ⟨hlen, rfl⟩
    exact ⟨by simpa [Config.patternLength] using hlen, rfl⟩
  · rintro ⟨hlen, rfl⟩
    exact ⟨by simpa [Config.patternLength] using hlen, rfl⟩

theorem assembleLine_of_pattern {l t : Line} {S : List Sym} (hl : classify l = .maskLine t) (ht : parsePattern t = some S) :
    assembleLine l = .word (encode (.setmask (xPlane S) (onesPlane S))) := by
  simp [assembleLine, hl, ht]

theorem assembleLine_of_no_pattern {l t : Line} (hl : classify l = .maskLine t) (ht : parsePattern t = none) :
    assembleLine l = .malformed .malformedMask := by
  simp [assembleLine, hl, ht]

theorem charOfSym_inj {x y : Sym} : charOfSym x = charOfSym y ↔ x = y := by
  constructor
  · intro h
    exact Option.some_inj.mp ((symOfChar_charOfSym x).symm.trans (h ▸ symOfChar_charOfSym y))
  · exact congrArg charOfSym

/-- The character of a text at a place is that of the symbol there. -/
theorem getElem?_map_charOfSym {S : List Sym} {j : Nat} {x : Sym} :
    (S.map charOfSym)[j]? = some (charOfSym x) ↔ S[j]? = some x := by
  simp [List.getElem?_map, charOfSym_inj]

/-- Settles O52: a text of 36 symbols is a pattern, and its planes mark its 'X' and '1' characters. -/
theorem maskLineAssemblesToItsPlanes : Obligations.MaskLineAssemblesToItsPlanes := by
  refine fun t => ⟨fun h => ?_, fun hlen hchars => ?_⟩
  · refine assembleLine_of_no_pattern (classify_mask t) (Option.eq_none_iff_forall_ne_some.mpr fun S hS => h ?_)
    obtain ⟨hlen, rfl⟩ := parsePattern_eq_some.mp hS
    exact ⟨(List.length_map charOfSym).trans hlen, (chars_of_symbols _).mpr ⟨S, rfl⟩⟩
  · obtain ⟨S, rfl⟩ := (chars_of_symbols t).mp hchars
    rw [List.length_map] at hlen
    refine ⟨xPlane S, onesPlane S, assembleLine_of_pattern (classify_mask _) (parsePattern_eq_some.mpr ⟨hlen, rfl⟩),
      planes_of_pattern_disjoint S hlen, fun p hp => ⟨?_, ?_⟩⟩
    · exact (getLsbD_bitmapOf_beq hlen .floating hp).trans (getElem?_map_charOfSym (x := .floating)).symm
    · exact (getLsbD_bitmapOf_beq hlen .one hp).trans (getElem?_map_charOfSym (x := .one)).symm

/-! ### A `mem` line -/

theorem assembleLine_of_numbers {l a v : Line} {n x : Nat} (hl : classify l = .memLine a v)
    (ha : parseInteger Config.maxAddress a = some n) (hv : parseInteger Config.maxValue v = some x) :
    assembleLine l = .word (encode (.write (BitVec.ofNat 36 n) (BitVec.ofNat 64 x))) := by
  simp [assembleLine, hl, ha, hv]

theorem assembleLine_of_no_number {l a v : Line} (hl : classify l = .memLine a v)
    (h : parseInteger Config.maxAddress a = none ∨ parseInteger Config.maxValue v = none) :
    assembleLine l = .malformed .malformedInteger := by
  obtain h | h := h
  · simp [assembleLine, hl, h]
  · simp [assembleLine, hl, h]

/-- When an address text is accepted (30_encoding.md rule R85). -/
theorem parseInteger_maxAddress {t : Line} {n : Nat} :
    parseInteger Config.maxAddress t = some n ↔ denotes t n ∧ n < 2 ^ 36 :=
  parseInteger_eq_some.trans (and_congr_right fun _ => Nat.lt_succ_iff.symm)

/-- When a value text is accepted (30_encoding.md rule R85). -/
theorem parseInteger_maxValue {t : Line} {x : Nat} :
    parseInteger Config.maxValue t = some x ↔ denotes t x ∧ x < 2 ^ 64 :=
  parseInteger_eq_some.trans (and_congr_right fun _ => Nat.lt_succ_iff.symm)

/-- Settles O53: a text is accepted exactly where it denotes a number within its bound. -/
theorem memLineAssemblesToItsNumbers : Obligations.MemLineAssemblesToItsNumbers := by
  refine fun l a v hl => ⟨fun n x ha hv hn hx => ?_, fun h => ?_⟩
  · exact assembleLine_of_numbers hl (parseInteger_maxAddress.mpr ⟨ha, hn⟩) (parseInteger_maxValue.mpr ⟨hv, hx⟩)
  · refine assembleLine_of_no_number hl (h.imp (fun h => ?_) fun h => ?_)
    · exact Option.eq_none_iff_forall_ne_some.mpr fun n hn => h ⟨n, parseInteger_maxAddress.mp hn⟩
    · exact Option.eq_none_iff_forall_ne_some.mpr fun x hx => h ⟨x, parseInteger_maxValue.mp hx⟩

/-! ### The canonical text -/

/-- A text without a closing bracket before a separator is the text before the first one. -/
theorem length_le_of_no_bracket {a v a' v' : Line} (ha : ']' ∉ a)
    (h : a ++ memSeparator ++ v = a' ++ memSeparator ++ v') : a.length ≤ a'.length := by
  by_contra hlt
  have hlt : a'.length < a.length := Nat.lt_of_not_le hlt
  have hbracket : (a' ++ memSeparator ++ v')[a'.length]? = some ']' := by
    rw [List.append_assoc, List.getElem?_append_right (le_refl _), Nat.sub_self]
    rfl
  rw [← h, List.append_assoc, List.getElem?_append_left hlt] at hbracket
  exact ha (List.mem_of_getElem? hbracket)

/-- A numeral in canonical form is the address text of its line. -/
theorem classify_decimal (n : Nat) (v : Line) :
    classify (memPrefix ++ decimal n ++ memSeparator ++ v) = .memLine (decimal n) v :=
  classify_eq_memLine.mpr ⟨rfl, fun _ _ h => length_le_of_no_bracket (bracket_not_mem_decimal n) h⟩

/-- Assembling what was disassembled gives the encoding of the instruction (30_encoding.md rule R87). -/
theorem assembleLine_disassemble {i : Instr} (hi : i.wf = true) :
    ∃ l, disassemble i = some l ∧ assembleLine l = .word (encode i) := by
  cases i with
  | setmask px p1 =>
    obtain ⟨S, hS⟩ := Option.isSome_iff_exists.mp (isSome_symbolsOfPlanes.mpr (planesDisjoint_eq_true.mp hi))
    obtain ⟨hlen, rfl, rfl⟩ := planes_of_symbolsOfPlanes hS
    exact ⟨_, by rw [disassemble, hS], assembleLine_of_pattern (classify_mask _) (parsePattern_eq_some.mpr ⟨hlen, rfl⟩)⟩
  | write addr value =>
    refine ⟨_, rfl, ?_⟩
    rw [assembleLine_of_numbers (classify_decimal _ _)
      (parseInteger_maxAddress.mpr ⟨denotes_decimal addr.toNat, addr.isLt⟩)
      (parseInteger_maxValue.mpr ⟨denotes_decimal value.toNat, value.isLt⟩), BitVec.ofNat_toNat, BitVec.ofNat_toNat,
      BitVec.setWidth_eq, BitVec.setWidth_eq]

theorem disassembleWord_of_legal {w : Word} {i : Instr} (h : decode w = .legal i) :
    disassembleWord w = disassemble i := by
  simp [disassembleWord, h]

/-- Settles O54: the canonical text of the instruction assembles to its encoding, which is the word. -/
theorem canonicalTextAssemblesToItsWord : Obligations.CanonicalTextAssemblesToItsWord := by
  intro w i h
  obtain ⟨l, hl, hword⟩ := assembleLine_disassemble (wf_of_decode h)
  exact ⟨l, (disassembleWord_of_legal h).trans hl, by rw [hword, encode_of_decode h]⟩

/-! ### The texts of one word -/

/-- Everything a line that assembles can be. -/
theorem assembleLine_word_cases {l : Line} {w : Word} (h : assembleLine l = .word w) :
    (∃ t S, classify l = .maskLine t ∧ parsePattern t = some S ∧ w = encode (.setmask (xPlane S) (onesPlane S))) ∨
    (∃ a v n x, classify l = .memLine a v ∧ parseInteger Config.maxAddress a = some n ∧
      parseInteger Config.maxValue v = some x ∧ w = encode (.write (BitVec.ofNat 36 n) (BitVec.ofNat 64 x))) := by
  unfold assembleLine at h
  split at h
  · cases h
  · rename_i t ht
    split at h
    · rename_i S hS
      cases h
      exact .inl ⟨t, S, ht, hS, rfl⟩
    · cases h
  · rename_i a v hav
    split at h
    · rename_i n x hn hx
      cases h
      exact .inr ⟨a, v, n, x, hav, hn, hx, rfl⟩
    · cases h

/-- A pattern's planes spell the pattern. -/
theorem symbolsOfPlanes_planes {S : List Sym} (hS : S.length = 36) :
    symbolsOfPlanes (xPlane S) (onesPlane S) = some S := by
  obtain ⟨T, hT⟩ := Option.isSome_iff_exists.mp (isSome_symbolsOfPlanes.mpr (planes_of_pattern_disjoint S hS))
  obtain ⟨hlen, hsym⟩ := symbolsBelow_eq_some hT
  rw [hT, Option.some_inj]
  refine List.ext_getElem? fun j => ?_
  by_cases hj : j < 36
  · have hx : S[35 - (35 - j)]? = some S[j] := by rw [show 35 - (35 - j) = j by omega, List.getElem?_eq_getElem]
    have hp : 35 - j < 36 := by omega
    have hTj : T[j]? = symbolAt (xPlane S) (onesPlane S) (35 - j) := by
      rw [← hsym (35 - j) hp, show Config.patternLength - 1 - (35 - j) = j by rw [Config.patternLength]; omega]
    rw [hTj, List.getElem?_eq_getElem (hS ▸ hj), symbolAt, xPlane, onesPlane, getLsbD_bitmapOf_of_symbol hS hp hx,
      getLsbD_bitmapOf_of_symbol hS hp hx]
    cases S[j] <;> rfl
  · rw [List.getElem?_eq_none (by rw [hlen]; exact Nat.le_of_not_lt hj),
      List.getElem?_eq_none (by rw [hS]; exact Nat.le_of_not_lt hj)]

/-- A word that a line assembles to is legal. -/
theorem decode_of_assembleLine {l : Line} {w : Word} (h : assembleLine l = .word w) : ∃ i, decode w = .legal i := by
  obtain ⟨t, S, -, hS, rfl⟩ | ⟨a, v, n, x, -, -, -, rfl⟩ := assembleLine_word_cases h
  · have hdisj := planes_of_pattern_disjoint S (parsePattern_eq_some.mp hS).1
    exact ⟨_, decodeOfEncodeGivesTheInstruction _ (planesDisjoint_eq_true.mpr hdisj)⟩
  · exact ⟨_, decodeOfEncodeGivesTheInstruction _ rfl⟩

/-- The canonical numeral of the number that a text denotes. -/
theorem decimal_of_denotes {t : Line} {n : Nat} (h : denotes t n) : decimal n = withoutLeadingZeros t := by
  obtain ⟨hne, hdigits, rfl⟩ := h
  exact decimal_ofDigitChars t hne hdigits

/-- Settles O55: the disassembler gives the pattern of a `mask` line back, and the numerals of a `mem` line in canonical
form. -/
theorem textsOfOneWordDifferInLeadingZerosOnly : Obligations.TextsOfOneWordDifferInLeadingZerosOnly := by
  intro l w h
  obtain ⟨t, S, hl, hS, rfl⟩ | ⟨a, v, n, x, hl, hn, hx, rfl⟩ := assembleLine_word_cases h
  · obtain ⟨hlen, rfl⟩ := parsePattern_eq_some.mp hS
    have hwf : (Instr.setmask (xPlane S) (onesPlane S)).wf = true :=
      planesDisjoint_eq_true.mpr (planes_of_pattern_disjoint S hlen)
    refine .inl ⟨_, hl, ?_⟩
    rw [disassembleWord_of_legal (decodeOfEncodeGivesTheInstruction _ hwf), disassemble, symbolsOfPlanes_planes hlen,
      classify_eq_maskLine.mp hl]
  · obtain ⟨ha, hn⟩ := parseInteger_maxAddress.mp hn
    obtain ⟨hv, hx⟩ := parseInteger_maxValue.mp hx
    refine .inr ⟨a, v, hl, ?_⟩
    rw [disassembleWord_of_legal (decodeOfEncodeGivesTheInstruction _ rfl), disassemble, BitVec.toNat_ofNat,
      BitVec.toNat_ofNat, Nat.mod_eq_of_lt hn, Nat.mod_eq_of_lt hx, decimal_of_denotes ha, decimal_of_denotes hv]

end Sys2Proof.Machine
end

section
/-! PROOFS. A whole program text (30_encoding.md section 5; 60_exceptions.md section 3): the first malformed line, and the
store of a text without one. -/

namespace Sys2Proof.Machine

/-- The error a line raises; none where it assembles. -/
def lineError (l : Line) : Option ParseError :=
  match assembleLine l with
  | .word _ => none
  | .malformed e => some e

theorem lineError_eq_some {l : Line} {e : ParseError} : lineError l = some e ↔ assembleLine l = .malformed e := by
  unfold lineError
  cases assembleLine l <;> simp

theorem lineError_eq_none {l : Line} : lineError l = none ↔ ∃ w, assembleLine l = .word w := by
  unfold lineError
  cases assembleLine l <;> simp

/-- Validation of a text looks at its first line as assembly does (60_exceptions.md rule R196). -/
theorem validateText_cons (l : Line) (ls : List Line) :
    validateText (l :: ls) = (lineError l).elim (validateText ls) some := by
  rw [validateText, lineError, assembleLine]
  cases classify l with
  | neither => rfl
  | maskLine t => cases ht : parsePattern t <;> simp [ht]
  | memLine a v =>
    cases ha : parseInteger Config.maxAddress a with
    | none => simp [ha]
    | some n => cases hv : parseInteger Config.maxValue v <;> simp [ha, hv]

/-- Validation of a text answers its first error. -/
theorem validateText_eq_findSome? (ls : List Line) : validateText ls = ls.findSome? lineError := by
  induction ls with
  | nil => rfl
  | cons l ls ih =>
    rw [validateText_cons, List.findSome?_cons, ih]
    cases lineError l <;> rfl

/-- A valid text holds lines that assemble only. -/
theorem validateText_eq_none {ls : List Line} : validateText ls = none ↔ ∀ l ∈ ls, ∃ w, assembleLine l = .word w := by
  simp only [validateText_eq_findSome?, List.findSome?_eq_none_iff, lineError_eq_none]

/-- A refused text by the index of the line that decides its error. -/
theorem assembleText_eq_refusedWith {ls : List Line} {e : ParseError} :
    assembleText ls = .refusedWith e ↔
      ∃ (n : Nat) (l : Line), ls[n]? = some l ∧ assembleLine l = .malformed e ∧
        ∀ j < n, ∃ l' w, ls[j]? = some l' ∧ assembleLine l' = .word w := by
  have hrefused : assembleText ls = .refusedWith e ↔ validateText ls = some e := by
    unfold assembleText
    cases validateText ls <;> simp
  rw [hrefused, validateText_eq_findSome?, findSome?_eq_some_iff_getElem?]
  simp only [lineError_eq_some, lineError_eq_none, exists_and_left]

/-- A text that assembles is valid, and its store is the words of its lines. -/
theorem assembleText_eq_program {ls : List Line} {prog : List Word} (h : assembleText ls = .program prog) :
    validateText ls = none ∧ prog = wordsOfLines ls := by
  unfold assembleText at h
  split at h
  · cases h
  · rename_i hv
    cases h
    exact ⟨hv, rfl⟩

/-- Where every line assembles the words are those of the lines, one for each. -/
theorem forall₂_wordsOfLines {ls : List Line} (h : ∀ l ∈ ls, ∃ w, assembleLine l = .word w) :
    List.Forall₂ (fun l w => assembleLine l = .word w) ls (wordsOfLines ls) := by
  induction ls with
  | nil => exact .nil
  | cons l ls ih =>
    obtain ⟨w, hw⟩ := h l List.mem_cons_self
    have hwords : wordsOfLines (l :: ls) = w :: wordsOfLines ls := by simp [wordsOfLines, hw]
    rw [hwords]
    exact .cons hw (ih fun k hk => h k (List.mem_cons_of_mem _ hk))

/-- The store of a text that assembles: as many words as lines, line i giving word i (30_encoding.md rule R80). -/
theorem program_of_assembleText {ls : List Line} {prog : List Word} (h : assembleText ls = .program prog) :
    prog.length = ls.length ∧
      ∀ (n : Nat) (hl : n < ls.length) (hw : n < prog.length), assembleLine ls[n] = .word prog[n] := by
  obtain ⟨hv, rfl⟩ := assembleText_eq_program h
  have hall := forall₂_wordsOfLines (validateText_eq_none.mp hv)
  exact ⟨hall.length_eq.symm, fun n hl hw => hall.get hl hw⟩

/-- The store of a text that assembles validates. -/
theorem validate_of_assembleText {ls : List Line} {prog : List Word} (h : assembleText ls = .program prog) :
    validate prog = none := by
  obtain ⟨hlen, hword⟩ := program_of_assembleText h
  refine validate_eq_none.mpr fun w hw => ?_
  obtain ⟨n, hn, rfl⟩ := List.getElem_of_mem hw
  exact decode_of_assembleLine (hword n (hlen ▸ hn) hn)

/-- Settles O56: the first error by its index; without one, the words by theirs. -/
theorem textAssemblesWholeOrIsRefused : Obligations.TextAssemblesWholeOrIsRefused := by
  refine fun ls => ⟨fun e => assembleText_eq_refusedWith, fun prog h => ?_⟩
  obtain ⟨hlen, hword⟩ := program_of_assembleText h
  refine ⟨hlen, validate_of_assembleText h, fun n l hl => ?_⟩
  obtain ⟨hn, rfl⟩ := List.getElem?_eq_some_iff.mp hl
  have hn' : n < prog.length := hlen ▸ hn
  exact ⟨prog[n], List.getElem?_eq_getElem hn', hword n hn hn'⟩

end Sys2Proof.Machine
end

section
/-! PROOFS. The host (70_reset_and_hazards.md): its moves, what each keeps, and the boot of a program as words or as text. -/

namespace Sys2Proof.Machine

/-! ### The host's moves -/

section
variable {s : State}

theorem hostAct_assertReset (hr : s.rst = false) : hostAct .assertReset s = .next s.underReset := by
  simp [hostAct, hr]

theorem hostAct_loadProgram (hr : s.rst = true) (prog : List Word) :
    hostAct (.loadProgram prog) s = .next { s with prog := prog, err := none } := by
  simp [hostAct, hr]

theorem hostAct_loadText (hr : s.rst = true) (ls : List Line) : hostAct (.loadText ls) s = .next (s.loadText ls) := by
  simp [hostAct, hr]

theorem hostAct_setMode (hr : s.rst = true) (mode : Mode) :
    hostAct (.setMode mode) s = .next { s with mode := mode } := by
  simp [hostAct, hr]

theorem hostAct_releaseReset (hr : s.rst = true) : hostAct .releaseReset s = .next s.afterRelease := by
  simp [hostAct, hr]

/-- Everything a move of the host can do when it answers a next state. -/
theorem hostAct_next_cases {t : State} {a : HostAction} (h : hostAct a s = .next t) :
    t = s ∨ t = s.underReset ∨
      (s.rst = true ∧ (t = s.afterRelease ∨ (∃ prog, t = { s with prog := prog, err := none }) ∨
        (∃ ls, t = s.loadText ls) ∨ ∃ mode, t = { s with mode := mode })) := by
  unfold hostAct at h
  split at h
  case h_1 => cases h; exact .inr (.inl rfl)
  case h_2 => cases h; exact .inl rfl
  case h_3 hr => cases h; exact .inr (.inr ⟨hr, .inl rfl⟩)
  case h_4 => cases h; exact .inl rfl
  case h_5 prog hr => cases h; exact .inr (.inr ⟨hr, .inr (.inl ⟨prog, rfl⟩)⟩)
  case h_6 ls hr => cases h; exact .inr (.inr ⟨hr, .inr (.inr (.inl ⟨ls, rfl⟩))⟩)
  case h_7 mode hr => cases h; exact .inr (.inr ⟨hr, .inr (.inr (.inr ⟨mode, rfl⟩))⟩)
  case h_8 => cases h
  case h_9 => cases h
  case h_10 => cases h

/-! ### The release of reset -/

theorem afterRelease_of_no_error (he : s.err = none) : s.afterRelease = release s.mode s.prog := by
  simp [State.afterRelease, he]

theorem afterRelease_of_error {e : ParseError} (he : s.err = some e) :
    s.afterRelease = { State.reset with mode := s.mode, prog := s.prog, err := some e } := by
  simp [State.afterRelease, he, State.takeError]

/-! ### The invariant -/

/-- While `rst` is asserted the inputs and the verdict of the front end are free: nothing has been validated. -/
theorem held_inv (hi : s.Inv) (hr : s.rst = true) (mode : Mode) (prog : List Word) (err : Option ParseError) :
    State.Inv { s with mode := mode, prog := prog, err := err } where
  memCanonical := hi.memCanonical
  pointerInRange := (hi.readyIsFresh (hi.heldIsReady hr)).1.trans_le (Nat.zero_le _)
  maskConsistent := hi.maskConsistent
  readyIsFresh := hi.readyIsFresh
  errorIsReady := fun _ => hi.heldIsReady hr
  heldIsReady := hi.heldIsReady
  programValidated := by simp [hr]
  haltedIsDone := by simp [hi.heldIsReady hr]

/-- Handing over text while `rst` is asserted changes the store and `ERR` only. -/
theorem loadText_inv (hi : s.Inv) (hr : s.rst = true) (ls : List Line) : (s.loadText ls).Inv := by
  cases h : assembleText ls with
  | program prog =>
    rw [loadText_of_program h]
    exact held_inv hi hr s.mode prog none
  | refusedWith e =>
    rw [loadText_of_refused h]
    exact held_inv hi hr s.mode [] (some e)

/-- After the release the machine is fresh: a store that can run was validated. -/
theorem afterRelease_inv (s : State) : s.afterRelease.Inv := by
  cases he : s.err with
  | none =>
    rw [afterRelease_of_no_error he]
    exact (releaseGivesTheResetTable s.mode s.prog).1
  | some e =>
    rw [afterRelease_of_error he]
    exact fresh_inv (rst := false) fun _ h => absurd h (Option.some_ne_none e)

end

/-- Settles O59: the refused moves by the move and `rst`; every other move leaves the state, a fresh one, or a held one. -/
theorem hostMovesAreRefusedDuringARun : Obligations.HostMovesAreRefusedDuringARun := by
  refine ⟨fun s prog ls mode hr => by simp [hostAct, hr], fun s t a hi h => ?_⟩
  obtain rfl | rfl | ⟨hr, rfl | ⟨prog, rfl⟩ | ⟨ls, rfl⟩ | ⟨mode, rfl⟩⟩ := hostAct_next_cases h
  · exact hi
  · exact fresh_inv (rst := true) fun h => absurd h (by decide)
  · exact afterRelease_inv s
  · exact held_inv hi hr s.mode prog none
  · exact loadText_inv hi hr ls
  · exact held_inv hi hr mode s.prog s.err

/-! ### The outputs -/

/-- Settles O60: a value is given only in `Halted`, where the invariant says that it is the sum. -/
theorem resultIsReadOnlyAfterTheHalt : Obligations.ResultIsReadOnlyAfterTheHalt := by
  intro s r hi h
  obtain ⟨⟨hs, -⟩, hr⟩ := Option.ite_none_right_eq_some.mp h
  cases hr
  refine ⟨by rw [State.outEs, hs]; rfl, ?_, (hi.haltedIsDone hs).2⟩
  by_contra he
  rw [hi.errorIsReady he] at hs
  cases hs

/-! ### Boot -/

/-- Settles O57: the four moves of the boot order, one after the other; no register of the earlier run is read. -/
theorem resetDiscardsTheEarlierRun : Obligations.ResetDiscardsTheEarlierRun :=
  fun _ _ prog hr => ⟨_, _, _, hostAct_assertReset hr, step_of_held rfl, hostAct_loadProgram rfl prog,
    hostAct_setMode rfl _, hostAct_releaseReset rfl⟩

/-- The hand-over of text keeps `rst`. -/
theorem loadText_rst (s : State) (ls : List Line) : (s.loadText ls).rst = s.rst := by
  cases h : assembleText ls with
  | program prog => rw [loadText_of_program h]
  | refusedWith e => rw [loadText_of_refused h]

/-- The release after a text that assembled runs its words. -/
theorem afterRelease_of_program {ls : List Line} {prog : List Word} (h : assembleText ls = .program prog) (s : State)
    (mode : Mode) : State.afterRelease { s.loadText ls with mode := mode } = release mode prog := by
  rw [loadText_of_program h]
  rfl

/-- The release after a text that was refused leaves its error and the empty store. -/
theorem afterRelease_of_refused {ls : List Line} {e : ParseError} (h : assembleText ls = .refusedWith e) (s : State)
    (mode : Mode) :
    State.afterRelease { s.loadText ls with mode := mode } =
      { State.reset with mode := mode, prog := [], err := some e } := by
  rw [loadText_of_refused h]
  rfl

/-- Settles O58: the moves of the boot order, and the release after either verdict; the codes of `ERR` are distinct. -/
theorem textProgramBootsAsItsWordsOrAsItsError : Obligations.TextProgramBootsAsItsWordsOrAsItsError := by
  intro s mode ls hr
  have hr' : (s.loadText ls).rst = true := (loadText_rst s ls).trans hr
  refine ⟨_, _, _, hostAct_loadText hr ls, hostAct_setMode hr' mode, hostAct_releaseReset hr', fun prog h => ?_,
    fun e h => ?_⟩
  · rw [afterRelease_of_program h, State.outErr, release_eq, validate_of_assembleText h]
    exact ⟨rfl, rfl⟩
  · rw [afterRelease_of_refused h]
    refine ⟨rfl, step_of_error rfl rfl, rfl, ?_, ?_⟩
    · exact fun h0 => Option.some_ne_none e ((errCode_inj (e' := none)).mp h0)
    · exact (errCode_inj (e' := some .malformedInteger)).trans Option.some_inj

end Sys2Proof.Machine
end
